-- ==== Sys2Proof/Word.lean ====
section
/-! DEFINITION. The widths of the machine's values (00_scope.md R7) and the plainest operations on them. -/

namespace Sys2Proof

/-- A general register, a timer, a byte of memory: XLEN = 8 bits (R7). -/
abbrev Byte := BitVec 8

/-- An instruction word, the index register, the program counter, a stack slot: 16 bits (R7). -/
abbrev Word := BitVec 16

/-- `zext_16(v)` of an 8-bit value (R17). -/
def Byte.zext (b : Byte) : Word := b.setWidth 16

/-- A flag value: VF is only ever set to 0 or 1 as a side effect (10_state.md R23). -/
def flagByte (c : Bool) : Byte := if c then 1 else 0

end Sys2Proof
end

