-- ==== Sys2Proof/Config.lean ====
section
/-! DEFINITION. The fixed sizes (00_scope.md R7), the two parameters the spec leaves to the implementation (R9), and the
one free value of the machine, the random byte (R15). -/

namespace Sys2Proof

/-- MEM_SIZE: addresses 0 to 4095 (R7). -/
def Config.memSize : Nat := 4096

/-- ORIGIN: where the program image is placed, and the reset value of PC (R7, R8; log 9). -/
def Config.origin : Nat := 0x200

/-- STACK_DEPTH: return-address slots (R7). -/
def Config.stackDepth : Nat := 16

/-- GLYPH_COUNT times GLYPH_BYTES: bytes of the glyph table (R7). -/
def Config.glyphBytes : Nat := 80

/-- ROM_MAX: the largest program image, MEM_SIZE - ORIGIN (R7). -/
def Config.romMax : Nat := 3584

/-- The parameters of one machine (R9, decision D6; log 6). `glyphBase` ranges over exactly the addresses R9 allows:
0 <= GLYPH_BASE and GLYPH_BASE + 80 <= 0x200. -/
structure Params where
  glyphBase : Fin 433
  glyphs    : Vector Byte 80
  deriving DecidableEq, Repr

/-- FREE VALUE (R15, R170, decision D18; log 19): the random byte the environment supplies with the n-th Step that it
issues after the scripted events of `State.pending` are used up. Nothing constrains it. -/
opaque Config.rndByte : Nat → Byte

end Sys2Proof
end

