-- ==== Sys2Proof/Syntax.lean ====
section
/-! DEFINITION. The instructions: one constructor per row of spec/opcode_table.json (30_encoding.md R74, R77), named by the
tags of R74 with a small first letter (log 2). -/

namespace Sys2Proof

/-- A register number X or Y: 4 bits, 0 to 15, always in range (10_state.md R21). -/
abbrev Reg := Fin 16

/-- A key index, 0 to 15 (10_state.md R32). -/
abbrev Key := Fin 16

/-- VF, the flag register: register 15 (10_state.md R23). -/
abbrev Reg.vf : Reg := 15

/-- The 34 operations and the halt sentinel, each carrying the fields its format has (R72, R74). The row count N of
DXYN is a number (R73); that it fits its 4-bit field is `Instr.WellFormed`. -/
inductive Instr where
  /-- 00E0 CLS: clear display (R100). -/
  | cls
  /-- 00EE RET: return (R110). -/
  | ret
  /-- 1NNN JP nnn (R111). -/
  | jp (nnn : BitVec 12)
  /-- 2NNN CALL nnn (R112). -/
  | call (nnn : BitVec 12)
  /-- 3XNN SE Vx, nn (R114). -/
  | seImm (x : Reg) (nn : Byte)
  /-- 4XNN SNE Vx, nn (R115). -/
  | sneImm (x : Reg) (nn : Byte)
  /-- 5XY0 SE Vx, Vy (R116). -/
  | seReg (x y : Reg)
  /-- 6XNN LD Vx, nn (R130). -/
  | ldImm (x : Reg) (nn : Byte)
  /-- 7XNN ADD Vx, nn (R131). -/
  | addImm (x : Reg) (nn : Byte)
  /-- 8XY0 LD Vx, Vy (R132). -/
  | mov (x y : Reg)
  /-- 8XY1 OR Vx, Vy (R133). -/
  | or (x y : Reg)
  /-- 8XY2 AND Vx, Vy (R134). -/
  | and (x y : Reg)
  /-- 8XY3 XOR Vx, Vy (R135). -/
  | xor (x y : Reg)
  /-- 8XY4 ADD Vx, Vy (R136). -/
  | addReg (x y : Reg)
  /-- 8XY5 SUB Vx, Vy (R137). -/
  | sub (x y : Reg)
  /-- 8XY6 SHR Vx, Vy (R138). -/
  | shr (x y : Reg)
  /-- 8XY7 SUBN Vx, Vy (R139). -/
  | subn (x y : Reg)
  /-- 8XYE SHL Vx, Vy (R140). -/
  | shl (x y : Reg)
  /-- 9XY0 SNE Vx, Vy (R117). -/
  | sneReg (x y : Reg)
  /-- ANNN LD I, nnn (R150). -/
  | ldI (nnn : BitVec 12)
  /-- BNNN JP V0, nnn (R113). -/
  | jpV0 (nnn : BitVec 12)
  /-- CXNN RND Vx, nn (R170). -/
  | rnd (x : Reg) (nn : Byte)
  /-- DXYN DRW Vx, Vy, n (R101). -/
  | drw (x y : Reg) (n : Nat)
  /-- EX9E SKP Vx (R180). -/
  | skp (x : Reg)
  /-- EXA1 SKNP Vx (R181). -/
  | sknp (x : Reg)
  /-- FX07 LD Vx, DT (R171). -/
  | ldVxDt (x : Reg)
  /-- FX0A LD Vx, K (R182). -/
  | ldVxK (x : Reg)
  /-- FX15 LD DT, Vx (R172). -/
  | ldDtVx (x : Reg)
  /-- FX18 LD ST, Vx (R173). -/
  | ldStVx (x : Reg)
  /-- FX1E ADD I, Vx (R151). -/
  | addI (x : Reg)
  /-- FX29 LD F, Vx (R152). -/
  | ldF (x : Reg)
  /-- FX33 LD B, Vx (R153). -/
  | bcd (x : Reg)
  /-- FX55 LD [I], Vx (R154). -/
  | storeRegs (x : Reg)
  /-- FX65 LD Vx, [I] (R155). -/
  | loadRegs (x : Reg)
  /-- FFFF HALT: the halt sentinel (R190). -/
  | halt
  deriving DecidableEq, Repr

end Sys2Proof
end

