-- ==== Sys2Proof/WellFormed.lean ====
section
/-! DEFINITION. Which instructions can be written as a word (30_encoding.md R71 to R73). Register numbers, NN and NNN have
exactly the width of their fields by their types; the one check left is that the row count of DXYN fits bits 3-0. -/

namespace Sys2Proof

/-- `Instr.WellFormed i`: every operand of `i` fits the field its format gives it (R72, R73). -/
def Instr.wellFormed : Instr → Bool
  | .drw _ _ n => n < 16
  | .cls => true
  | .ret => true
  | .jp _ => true
  | .call _ => true
  | .seImm _ _ => true
  | .sneImm _ _ => true
  | .seReg _ _ => true
  | .ldImm _ _ => true
  | .addImm _ _ => true
  | .mov _ _ => true
  | .or _ _ => true
  | .and _ _ => true
  | .xor _ _ => true
  | .addReg _ _ => true
  | .sub _ _ => true
  | .shr _ _ => true
  | .subn _ _ => true
  | .shl _ _ => true
  | .sneReg _ _ => true
  | .ldI _ => true
  | .jpV0 _ => true
  | .rnd _ _ => true
  | .skp _ => true
  | .sknp _ => true
  | .ldVxDt _ => true
  | .ldVxK _ => true
  | .ldDtVx _ => true
  | .ldStVx _ => true
  | .addI _ => true
  | .ldF _ => true
  | .bcd _ => true
  | .storeRegs _ => true
  | .loadRegs _ => true
  | .halt => true

/-- The proposition form of `Instr.wellFormed`. -/
abbrev Instr.WellFormed (i : Instr) : Prop := i.wellFormed = true

end Sys2Proof
end

