-- ==== Sys2Proof/Decode.lean ====
section
/-! DEFINITION. The decoder (30_encoding.md R70 to R79), total on any word, the encoder written from the same formats, and the
opcode map of R77 as data. -/

namespace Sys2Proof

/-- What the decoder answers for a word: exactly one of the instructions, or `Unknown(word)` (R74, R79). -/
inductive Decoded where
  | ok (i : Instr)
  | unknown (w : Word)
  deriving DecidableEq, Repr

/-- What decoding the bytes of a program answers. -/
inductive DecodedBytes where
  /-- An instruction and the bytes after it. -/
  | ok (i : Instr) (rest : List Byte)
  /-- `Unknown(word)` (R74). -/
  | unknown (w : Word)
  /-- Fewer than two bytes are left: no whole word (R70). Never met by a Step, whose fetch reads two bytes (R60). -/
  | truncated
  deriving DecidableEq, Repr

/-- The two bytes of a fetched word: the byte at the lower address is bits 15 to 8 (20_memory.md R52, decision D1; log 1). -/
def wordOfBytes (b0 b1 : Byte) : Word := b0.setWidth 16 <<< 8 ||| b1.setWidth 16

/-- The bytes of a word as they lie in memory, the lower address first (R52; log 1). -/
def bytesOfWord (w : Word) : Byte × Byte := (w.extractLsb' 8 8, w.extractLsb' 0 8)

/-! ### Fields (R71) -/

/-- G, bits 15-12: the primary nibble. -/
def fieldG (w : Word) : Fin 16 := (w.extractLsb' 12 4).toFin

/-- X, bits 11-8. -/
def fieldX (w : Word) : Reg := (w.extractLsb' 8 4).toFin

/-- Y, bits 7-4. -/
def fieldY (w : Word) : Reg := (w.extractLsb' 4 4).toFin

/-- N, bits 3-0. -/
def fieldN (w : Word) : Fin 16 := (w.extractLsb' 0 4).toFin

/-- NN, bits 7-0. -/
def fieldNN (w : Word) : Byte := w.extractLsb' 0 8

/-- NNN, bits 11-0. -/
def fieldNNN (w : Word) : BitVec 12 := w.extractLsb' 0 12

/-! ### The decoder (R75) -/

/-- Group 0: 00E0 and 00EE on all 16 bits, anything else Unknown (R75, R78, decision D2; log 2). -/
def decodeGroup0 (w : Word) : Decoded :=
  if w = 0x00E0 then .ok .cls
  else if w = 0x00EE then .ok .ret
  else .unknown w

/-- Group 8: the sub-code is N; the last arm is 0x8 to 0xD and 0xF (R75, 42_alu.md R141). -/
def decodeGroup8 (w : Word) : Decoded :=
  match fieldN w with
  | 0x0 => .ok (.mov (fieldX w) (fieldY w))
  | 0x1 => .ok (.or (fieldX w) (fieldY w))
  | 0x2 => .ok (.and (fieldX w) (fieldY w))
  | 0x3 => .ok (.xor (fieldX w) (fieldY w))
  | 0x4 => .ok (.addReg (fieldX w) (fieldY w))
  | 0x5 => .ok (.sub (fieldX w) (fieldY w))
  | 0x6 => .ok (.shr (fieldX w) (fieldY w))
  | 0x7 => .ok (.subn (fieldX w) (fieldY w))
  | 0xE => .ok (.shl (fieldX w) (fieldY w))
  | _ => .unknown w

/-- Group E: the sub-code is NN (R75). -/
def decodeGroupE (w : Word) : Decoded :=
  if fieldNN w = 0x9E then .ok (.skp (fieldX w))
  else if fieldNN w = 0xA1 then .ok (.sknp (fieldX w))
  else .unknown w

/-- Group F: the sub-code is NN (R75). -/
def decodeGroupF (w : Word) : Decoded :=
  if fieldNN w = 0x07 then .ok (.ldVxDt (fieldX w))
  else if fieldNN w = 0x0A then .ok (.ldVxK (fieldX w))
  else if fieldNN w = 0x15 then .ok (.ldDtVx (fieldX w))
  else if fieldNN w = 0x18 then .ok (.ldStVx (fieldX w))
  else if fieldNN w = 0x1E then .ok (.addI (fieldX w))
  else if fieldNN w = 0x29 then .ok (.ldF (fieldX w))
  else if fieldNN w = 0x33 then .ok (.bcd (fieldX w))
  else if fieldNN w = 0x55 then .ok (.storeRegs (fieldX w))
  else if fieldNN w = 0x65 then .ok (.loadRegs (fieldX w))
  else .unknown w

/-- `Decode(word)`: a pure, total function of the word (R70, R75). The last arm is group 0xF. -/
def decode (w : Word) : Decoded :=
  if w = 0xFFFF then .ok .halt
  else match fieldG w with
    | 0x0 => decodeGroup0 w
    | 0x1 => .ok (.jp (fieldNNN w))
    | 0x2 => .ok (.call (fieldNNN w))
    | 0x3 => .ok (.seImm (fieldX w) (fieldNN w))
    | 0x4 => .ok (.sneImm (fieldX w) (fieldNN w))
    | 0x5 => if fieldN w = 0 then .ok (.seReg (fieldX w) (fieldY w)) else .unknown w
    | 0x6 => .ok (.ldImm (fieldX w) (fieldNN w))
    | 0x7 => .ok (.addImm (fieldX w) (fieldNN w))
    | 0x8 => decodeGroup8 w
    | 0x9 => if fieldN w = 0 then .ok (.sneReg (fieldX w) (fieldY w)) else .unknown w
    | 0xA => .ok (.ldI (fieldNNN w))
    | 0xB => .ok (.jpV0 (fieldNNN w))
    | 0xC => .ok (.rnd (fieldX w) (fieldNN w))
    | 0xD => .ok (.drw (fieldX w) (fieldY w) (fieldN w))
    | 0xE => decodeGroupE w
    | _ => decodeGroupF w

/-- Decoding the bytes of a program: one instruction and the bytes after it, or why there is none. Every instruction
is exactly two bytes (R70). -/
def decodeBytes : List Byte → DecodedBytes
  | b0 :: b1 :: rest =>
    match decode (wordOfBytes b0 b1) with
    | .ok i => .ok i rest
    | .unknown w => .unknown w
  | _ => .truncated

/-- The instruction of one row of spec/opcode_table.json: the word's bits above `nbits` are 0, its bytes are laid out
as the hardware stores them (R52), and the decoder reads them. -/
def decodeTableWord (nbits w : Nat) : Option Instr :=
  let b := bytesOfWord (BitVec.ofNat 16 (w % 2 ^ nbits))
  match decodeBytes [b.1, b.2] with
  | .ok i _ => some i
  | .unknown _ => none
  | .truncated => none

/-! ### The encoder, from the formats of R72 -/

/-- Format NNN. -/
def formatNNN (g : BitVec 4) (nnn : BitVec 12) : Word := g.setWidth 16 <<< 12 ||| nnn.setWidth 16

/-- Format XNN; format XSS is the same with a constant NN. -/
def formatXNN (g : BitVec 4) (x : Reg) (nn : Byte) : Word :=
  g.setWidth 16 <<< 12 ||| (BitVec.ofNat 4 x).setWidth 16 <<< 8 ||| nn.setWidth 16

/-- Format XYN; format XYS is the same with a constant N. -/
def formatXYN (g : BitVec 4) (x y : Reg) (n : BitVec 4) : Word :=
  g.setWidth 16 <<< 12 ||| (BitVec.ofNat 4 x).setWidth 16 <<< 8 ||| (BitVec.ofNat 4 y).setWidth 16 <<< 4 ||| n.setWidth 16

/-- The word of a well-formed instruction (R72, R77). -/
def encode : Instr → Word
  | .cls => 0x00E0
  | .ret => 0x00EE
  | .jp nnn => formatNNN 0x1 nnn
  | .call nnn => formatNNN 0x2 nnn
  | .seImm x nn => formatXNN 0x3 x nn
  | .sneImm x nn => formatXNN 0x4 x nn
  | .seReg x y => formatXYN 0x5 x y 0x0
  | .ldImm x nn => formatXNN 0x6 x nn
  | .addImm x nn => formatXNN 0x7 x nn
  | .mov x y => formatXYN 0x8 x y 0x0
  | .or x y => formatXYN 0x8 x y 0x1
  | .and x y => formatXYN 0x8 x y 0x2
  | .xor x y => formatXYN 0x8 x y 0x3
  | .addReg x y => formatXYN 0x8 x y 0x4
  | .sub x y => formatXYN 0x8 x y 0x5
  | .shr x y => formatXYN 0x8 x y 0x6
  | .subn x y => formatXYN 0x8 x y 0x7
  | .shl x y => formatXYN 0x8 x y 0xE
  | .sneReg x y => formatXYN 0x9 x y 0x0
  | .ldI nnn => formatNNN 0xA nnn
  | .jpV0 nnn => formatNNN 0xB nnn
  | .rnd x nn => formatXNN 0xC x nn
  | .drw x y n => formatXYN 0xD x y (BitVec.ofNat 4 n)
  | .skp x => formatXNN 0xE x 0x9E
  | .sknp x => formatXNN 0xE x 0xA1
  | .ldVxDt x => formatXNN 0xF x 0x07
  | .ldVxK x => formatXNN 0xF x 0x0A
  | .ldDtVx x => formatXNN 0xF x 0x15
  | .ldStVx x => formatXNN 0xF x 0x18
  | .addI x => formatXNN 0xF x 0x1E
  | .ldF x => formatXNN 0xF x 0x29
  | .bcd x => formatXNN 0xF x 0x33
  | .storeRegs x => formatXNN 0xF x 0x55
  | .loadRegs x => formatXNN 0xF x 0x65
  | .halt => 0xFFFF

/-! ### The opcode map of R77 as data -/

/-- The row number of R77 that an instruction stands in. -/
def Instr.rowNumber : Instr → Nat
  | .cls => 1
  | .ret => 2
  | .jp _ => 3
  | .call _ => 4
  | .seImm _ _ => 5
  | .sneImm _ _ => 6
  | .seReg _ _ => 7
  | .ldImm _ _ => 8
  | .addImm _ _ => 9
  | .mov _ _ => 10
  | .or _ _ => 11
  | .and _ _ => 12
  | .xor _ _ => 13
  | .addReg _ _ => 14
  | .sub _ _ => 15
  | .shr _ _ => 16
  | .subn _ _ => 17
  | .shl _ _ => 18
  | .sneReg _ _ => 19
  | .ldI _ => 20
  | .jpV0 _ => 21
  | .rnd _ _ => 22
  | .drw _ _ _ => 23
  | .skp _ => 24
  | .sknp _ => 25
  | .ldVxDt _ => 26
  | .ldVxK _ => 27
  | .ldDtVx _ => 28
  | .ldStVx _ => 29
  | .addI _ => 30
  | .ldF _ => 31
  | .bcd _ => 32
  | .storeRegs _ => 33
  | .loadRegs _ => 34
  | .halt => 35

/-- One row of the opcode map: `w` is the row's instruction when `w & mask == value` (R77's column "match"). -/
structure OpcodeRow where
  number : Nat
  mask   : Word
  value  : Word
  deriving DecidableEq, Repr

/-- Rows 1 to 9 of R77. -/
def opcodeRowsLow : List OpcodeRow :=
  [⟨1, 0xFFFF, 0x00E0⟩, ⟨2, 0xFFFF, 0x00EE⟩, ⟨3, 0xF000, 0x1000⟩, ⟨4, 0xF000, 0x2000⟩, ⟨5, 0xF000, 0x3000⟩,
   ⟨6, 0xF000, 0x4000⟩, ⟨7, 0xF00F, 0x5000⟩, ⟨8, 0xF000, 0x6000⟩, ⟨9, 0xF000, 0x7000⟩]

/-- Rows 10 to 23 of R77. -/
def opcodeRowsMiddle : List OpcodeRow :=
  [⟨10, 0xF00F, 0x8000⟩, ⟨11, 0xF00F, 0x8001⟩, ⟨12, 0xF00F, 0x8002⟩, ⟨13, 0xF00F, 0x8003⟩, ⟨14, 0xF00F, 0x8004⟩,
   ⟨15, 0xF00F, 0x8005⟩, ⟨16, 0xF00F, 0x8006⟩, ⟨17, 0xF00F, 0x8007⟩, ⟨18, 0xF00F, 0x800E⟩, ⟨19, 0xF00F, 0x9000⟩,
   ⟨20, 0xF000, 0xA000⟩, ⟨21, 0xF000, 0xB000⟩, ⟨22, 0xF000, 0xC000⟩, ⟨23, 0xF000, 0xD000⟩]

/-- Rows 24 to 35 of R77. -/
def opcodeRowsHigh : List OpcodeRow :=
  [⟨24, 0xF0FF, 0xE09E⟩, ⟨25, 0xF0FF, 0xE0A1⟩, ⟨26, 0xF0FF, 0xF007⟩, ⟨27, 0xF0FF, 0xF00A⟩, ⟨28, 0xF0FF, 0xF015⟩,
   ⟨29, 0xF0FF, 0xF018⟩, ⟨30, 0xF0FF, 0xF01E⟩, ⟨31, 0xF0FF, 0xF029⟩, ⟨32, 0xF0FF, 0xF033⟩, ⟨33, 0xF0FF, 0xF055⟩,
   ⟨34, 0xF0FF, 0xF065⟩, ⟨35, 0xFFFF, 0xFFFF⟩]

/-- The complete list of instructions: 35 rows (R77). -/
def opcodeRows : List OpcodeRow := opcodeRowsLow ++ opcodeRowsMiddle ++ opcodeRowsHigh

/-- `w & mask == match` (R77). -/
def OpcodeRow.covers (r : OpcodeRow) (w : Word) : Bool := w &&& r.mask == r.value

end Sys2Proof
end

