-- ==== Sys2Proof/Machine/Glyphs.lean ====
section
/-! DEFINITION. The default values of the parameters GLYPH_BASE and GLYPHS (00_scope.md R9, 10_state.md R40; log 6). -/

namespace Sys2Proof.Machine

/-- Glyphs 0 to 7 of R40. PRESUMED (log 6). -/
def glyphsLow : List Byte :=
  [0xF0, 0x90, 0x90, 0x90, 0xF0,  0x20, 0x60, 0x20, 0x20, 0x70,
   0xF0, 0x10, 0xF0, 0x80, 0xF0,  0xF0, 0x10, 0xF0, 0x10, 0xF0,
   0x90, 0x90, 0xF0, 0x10, 0x10,  0xF0, 0x80, 0xF0, 0x10, 0xF0,
   0xF0, 0x80, 0xF0, 0x90, 0xF0,  0xF0, 0x10, 0x20, 0x40, 0x40]

/-- Glyphs 8 to F of R40. PRESUMED (log 6). -/
def glyphsHigh : List Byte :=
  [0xF0, 0x90, 0xF0, 0x90, 0xF0,  0xF0, 0x90, 0xF0, 0x10, 0xF0,
   0xF0, 0x90, 0xF0, 0x90, 0x90,  0xE0, 0x90, 0xE0, 0x90, 0xE0,
   0xF0, 0x80, 0x80, 0x80, 0xF0,  0xE0, 0x90, 0x90, 0x90, 0xE0,
   0xF0, 0x80, 0xF0, 0x80, 0xF0,  0xF0, 0x80, 0xF0, 0x80, 0x80]

/-- The spec's default parameters: GLYPH_BASE = 0x050 and the table of R40. PRESUMED (log 6). -/
def defaultParams : Params :=
  { glyphBase := 0x050
    glyphs := ⟨(glyphsLow ++ glyphsHigh).toArray, rfl⟩ }

end Sys2Proof.Machine
end

