-- ==== Sys2Proof/Machine/State.lean ====
section
/-! DEFINITION. The machine's state (10_state.md R20), the reasons a Step ends without Continue (60_exceptions.md R200, R201),
and the state right after reset (70_reset_and_hazards.md R230). -/

namespace Sys2Proof.Machine

/-- KW, the key-wait state (10_state.md R33). -/
inductive KeyWait where
  /-- No FX0A is in progress. -/
  | idle
  /-- An FX0A saw no key down at its last poll (45_keypad.md R183). -/
  | awaitingPress
  /-- An FX0A latched key `k` and waits for its release (R184). -/
  | awaitingRelease (k : Key)
  deriving DecidableEq, Repr

/-- What the environment does to a running machine, one at a time (00_scope.md R10 to R12, R14). Load happens once, at
creation (R13), and Snapshot changes nothing (60_exceptions.md R219), so neither is an event of a run. -/
inductive Event where
  /-- Perform one fetch-decode-execute cycle with this random byte (R10, R15). -/
  | step (rnd : Byte)
  /-- Decrement both timers (R11). -/
  | tickTimers
  /-- Key `k` goes down or up (R12; a key index is a 4-bit input, log 24). -/
  | setKey (k : Key) (pressed : Bool)
  deriving DecidableEq, Repr

/-- MEM as cells of (address, byte), in the canonical form `Memory.wf`: addresses strictly rising, no entry equal to
what an unlisted address reads as (`resetByte`; log 8). -/
abbrev Memory := List Host.Cell

/-- The complete state (10_state.md R20), and the model's own fields (`params`, `rnd`, `pending`, `rndDraws`). -/
structure State where
  /-- V0 to VF (R21); VF is V[15] (R23). -/
  v : Vector Byte 16
  /-- I (R27). -/
  index : Word
  /-- PC: the address of the next instruction to fetch, and during an instruction its own address (R24). -/
  pc : Word
  /-- SP: how many return addresses are on the stack, 0 to 16 (R28). -/
  sp : Fin 17
  /-- STACK: sixteen return-address slots, the oldest entry at index 0 (R29). -/
  stack : Vector Word 16
  /-- FB: rows 0 (top) to 31; bit x of a row is the pixel in column x (R30; log 27). -/
  fb : Vector (BitVec 64) 32
  /-- DT (R31). -/
  dt : Byte
  /-- ST (R31). -/
  st : Byte
  /-- KEY: true is pressed (R32). -/
  key : Vector Bool 16
  /-- KW (R33). -/
  kw : KeyWait
  /-- MEM (R34). -/
  mem : Memory
  /-- EXT_HI: the loaded extent is [0x200, EXT_HI) (R35). -/
  extHi : Nat
  /-- GLYPH_BASE and GLYPHS, the parameters of this machine, changed by nothing (00_scope.md R9; log 6). -/
  params : Params
  /-- The random byte of the current Step, an input (00_scope.md R15; log 19). -/
  rnd : Byte
  /-- The events the environment issues next, oldest first; when there is none it issues Step (log 18). -/
  pending : List Event
  /-- How many random bytes beyond `pending` have been supplied (log 19). -/
  rndDraws : Nat
  deriving DecidableEq, Repr

/-- Why a Step (or Load) ends with an outcome other than Continue. In every case the state is the one before the Step
(46_halt_unknown.md R190, 60_exceptions.md R205; log 21), so stopping here is safe. -/
inductive Fault where
  /-- Outcome Halted, no error: raised by HALT (R190) and by every Step that finds PC outside the loaded extent
  (20_memory.md R59). Safe: the spec's own outcome. -/
  | halted
  /-- Raised by 2NNN when SP = 16 (R201). Safe: the spec's own error. -/
  | stackOverflow
  /-- Raised by 00EE when SP = 0 (R201). Safe: the spec's own error. -/
  | stackUnderflow
  /-- Raised by a Step that decodes an Unknown word (R191, R201). Safe: the spec's own error. -/
  | unimplementedOpcode (w : Word)
  /-- Raised by DXYN, FX33, FX55, FX65 and fetch for an access above 4095, with the lowest out-of-range address
  (R201, R203; logs 5, 16). Safe: the spec's own error. -/
  | memoryAccessOutOfBounds (addr : Nat)
  /-- Raised by Load alone, for an image longer than 3584 bytes; no machine exists then (R204, R231). Safe. -/
  | romTooLarge
  deriving DecidableEq, Repr

/-- Reasons to give no meaning. -/
inductive Refusal where
  /-- Raised by an arm of `exec` whose instruction has no meaning yet; no arm of this model is one. Safe. -/
  | notModelled (mnemonic : String)
  deriving DecidableEq, Repr

/-- What one event answers: the three outcomes of the host over this machine. -/
abbrev Result := Host.Outcome State Fault Refusal

/-- The machine right after reset with an empty image (70_reset_and_hazards.md R230, R234). PC, SP, KW and EXT_HI have the
spec's values; the zeros are the spec's decision D7 (log 7), the parameters its defaults (log 6). -/
def State.reset : State :=
  { v := Vector.replicate 16 0
    index := 0
    pc := 0x200
    sp := 0
    stack := Vector.replicate 16 0
    fb := Vector.replicate 32 0
    dt := 0
    st := 0
    key := Vector.replicate 16 false
    kw := .idle
    mem := []
    extHi := 0x200
    params := defaultParams
    rnd := 0
    pending := []
    rndDraws := 0 }

end Sys2Proof.Machine
end

