-- ==== Sys2Proof/Machine/Ops.lean ====
section
/-! DEFINITION. The named operations over memory, registers, stack, bitmap and keys, and raising an error
(00_scope.md R17, 20_memory.md, 60_exceptions.md R205). Every read and write of state goes through these. -/

namespace Sys2Proof.Machine

/-! ### Memory (20_memory.md) -/

/-- What an address that no cell lists reads as: the reset content without an image, the glyph table at GLYPH_BASE and
0 elsewhere (10_state.md R34, 20_memory.md R51; logs 6, 8). -/
def resetByte (p : Params) (a : Nat) : Byte :=
  if h : p.glyphBase.val ≤ a ∧ a < p.glyphBase.val + 80 then
    p.glyphs[a - p.glyphBase.val]'(by omega)
  else 0

/-- The listed byte at an address. -/
def Memory.lookup : Memory → Nat → Option Byte
  | [], _ => none
  | (k, b) :: m, a => if k = a then some b else Memory.lookup m a

/-- `MEM[a]` (R17): the byte at an address already known to be in range. -/
def Memory.read (p : Params) (m : Memory) (a : Nat) : Byte :=
  (Memory.lookup m a).getD (resetByte p a)

/-- The cells without the one at an address. -/
def Memory.remove : Memory → Nat → Memory
  | [], _ => []
  | (k, b) :: m, a => if k = a then m else (k, b) :: Memory.remove m a

/-- The cells with one put in its place. -/
def Memory.put : Memory → Nat → Byte → Memory
  | [], a, x => [(a, x)]
  | (k, b) :: m, a, x =>
    if a < k then (a, x) :: (k, b) :: m
    else if a = k then (a, x) :: m
    else (k, b) :: Memory.put m a x

/-- `MEM[a] <- x` (R17), keeping the canonical form. -/
def Memory.write (p : Params) (m : Memory) (a : Nat) (x : Byte) : Memory :=
  if x = resetByte p a then Memory.remove m a else Memory.put m a x

/-- The canonical form: addresses strictly rising and inside [0, 4096), no cell equal to what its address would read
as unlisted. -/
abbrev Memory.wf (p : Params) (m : Memory) : Prop :=
  m.Pairwise (fun c d => c.1 < d.1) ∧ ∀ c ∈ m, c.1 < Config.memSize ∧ c.2 ≠ resetByte p c.1

/-- The cells of a byte sequence placed from address `a` on, in canonical form (70_reset_and_hazards.md R230). -/
def Memory.ofBytes (p : Params) : Nat → List Byte → Memory
  | _, [] => []
  | a, x :: xs =>
    if x = resetByte p a then Memory.ofBytes p (a + 1) xs
    else (a, x) :: Memory.ofBytes p (a + 1) xs

/-- The byte at `a` in this state. -/
def readByte (s : State) (a : Nat) : Byte := Memory.read s.params s.mem a

/-- The state with the byte at `a` written. -/
def writeByte (a : Nat) (x : Byte) (s : State) : State :=
  { s with mem := Memory.write s.params s.mem a x }

/-- The word at PC, high-order byte first (20_memory.md R52, R60; log 1). -/
def fetchWord (s : State) : Word :=
  wordOfBytes (readByte s s.pc.toNat) (readByte s (s.pc.toNat + 1))

/-! ### Registers (10_state.md R21 to R27) -/

/-- `V[i]`. -/
def readV (s : State) (r : Reg) : Byte := s.v[r]

/-- `V[i] <- x`. -/
def writeV (r : Reg) (x : Byte) (s : State) : State := { s with v := s.v.set r x }

/-- A result to V[X], then a flag to VF: the flag is written last and wins when X = 15 (42_alu.md R143, decision D4;
log 4). -/
def writeResultAndFlag (x : Reg) (result flag : Byte) (s : State) : State :=
  writeV .vf flag (writeV x result s)

/-- `pc <- target`. -/
def setPc (target : Word) (s : State) : State := { s with pc := target }

/-- `I <- x`. -/
def setIndex (x : Word) (s : State) : State := { s with index := x }

/-- `DT <- x`. -/
def setDt (x : Byte) (s : State) : State := { s with dt := x }

/-- `ST <- x`. -/
def setSt (x : Byte) (s : State) : State := { s with st := x }

/-- `KW <- k`. -/
def setKw (k : KeyWait) (s : State) : State := { s with kw := k }

/-- The registers V0 to VF in ascending order. -/
def allRegs : List Reg := [0, 1, 2, 3, 4, 5, 6, 7, 8, 9, 10, 11, 12, 13, 14, 15]

/-- V0 to VX in ascending order, the registers FX55 and FX65 transfer (10_state.md R22). -/
def regsUpTo (x : Reg) : List Reg := allRegs.filter (· ≤ x)

/-! ### Ends of an instruction (00_scope.md R17) -/

/-- `next`: PC + 2, outcome Continue (log 25). -/
def next (s : State) : Result := .next (setPc (s.pc + 2) s)

/-- `skip`: PC + 4, outcome Continue; the skipped word is not decoded (41_control_flow.md R118). -/
def skip (s : State) : Result := .next (setPc (s.pc + 4) s)

/-- A conditional skip (10_state.md R25). -/
def skipIf (c : Bool) (s : State) : Result := if c then skip s else next s

/-- `raise E(info)`: the Step ends at once with Error(E(info)) and changes nothing; nothing is saved, no vector is
consulted, and there is no return from it (60_exceptions.md R205, R208; log 21). -/
def raise (e : Fault) : Result := .fault e

/-- `return Halted`: the Step ends with Halted and changes nothing (00_scope.md R17, 46_halt_unknown.md R190). -/
def returnHalted : Result := .fault .halted

/-! ### The range check (20_memory.md R57, R58) -/

/-- Whether an access of `len` bytes from `base` stays within [0, 4096), without any reduction of the address; an
access of no bytes always does (40_display.md R101). -/
def inRange (base len : Nat) : Bool := len = 0 || base + len - 1 ≤ 4095

/-- The lowest out-of-range address of an access that is not in range (R58). -/
def lowestOutOfRange (base : Nat) : Nat := max base 4096

/-- Run `k` on the state if the whole access is in range, else raise, before anything is written (R58, decision D5;
log 5). -/
def withAccess (base len : Nat) (k : State → Result) (s : State) : Result :=
  if inRange base len then k s else raise (.memoryAccessOutOfBounds (lowestOutOfRange base))

/-! ### The return stack (10_state.md R28, R29; log 14) -/

/-- Push a return address: STACK[SP] <- x, then SP + 1; StackOverflow when SP = 16 (41_control_flow.md R112). -/
def push (x : Word) (k : State → Result) (s : State) : Result :=
  if h : s.sp.val < 16 then
    k { s with stack := s.stack.set s.sp.val x, sp := ⟨s.sp.val + 1, by omega⟩ }
  else raise .stackOverflow

/-- Pop a return address: SP - 1, then STACK[SP], whose content stays in place; StackUnderflow when SP = 0
(41_control_flow.md R110). -/
def pop (k : Word → State → Result) (s : State) : Result :=
  if h : 0 < s.sp.val then
    k (s.stack[s.sp.val - 1]'(by omega)) { s with sp := ⟨s.sp.val - 1, by omega⟩ }
  else raise .stackUnderflow

/-! ### The bitmap (10_state.md R30) -/

/-- `FB[y][x]` of a bitmap. -/
def pixelAt (fb : Vector (BitVec 64) 32) (y : Fin 32) (x : Fin 64) : Bool := fb[y].getLsbD x

/-- `FB[y][x] <- FB[y][x] ^ 1`. -/
def togglePixel (y : Fin 32) (x : Fin 64) (fb : Vector (BitVec 64) 32) : Vector (BitVec 64) 32 :=
  fb.set y (fb[y] ^^^ BitVec.twoPow 64 x)

/-- The bitmap of a state replaced. -/
def setFb (fb : Vector (BitVec 64) 32) (s : State) : State := { s with fb := fb }

/-- A cleared bitmap (40_display.md R100). -/
def clearFb : Vector (BitVec 64) 32 := Vector.replicate 32 0

/-! ### Keys (10_state.md R32) -/

/-- `KEY[k]`. -/
def keyDown (s : State) (k : Key) : Bool := s.key[k]

/-- `KEY[k] <- pressed`. -/
def setKeyBit (k : Key) (pressed : Bool) (s : State) : State := { s with key := s.key.set k pressed }

/-- The keys 0 to 15 in ascending order. -/
def allKeys : List Key := [0, 1, 2, 3, 4, 5, 6, 7, 8, 9, 10, 11, 12, 13, 14, 15]

/-- `lowest_pressed`: the smallest pressed key, or none (45_keypad.md R182). -/
def lowestPressed (s : State) : Option Key := allKeys.find? (keyDown s)

/-! ### Placing a word where the next Step fetches (for the host) -/

/-- Whether a Step at this PC could fetch a word if the extent reached it (20_memory.md R59, R60). -/
def fetchable (pc : Word) : Bool := 0x200 ≤ pc.toNat && pc.toNat ≤ 4094

/-- Whether an event is a Step. -/
def Event.isStep : Event → Bool
  | .step _ => true
  | .tickTimers => false
  | .setKey _ _ => false

/-- The state in which the very next event is a Step that fetches `w`: a PC from which nothing can be fetched becomes
the entry point 0x200, the word is stored at PC, the extent reaches past it, and events due before the next Step are
dropped (log 23). -/
def placeWord (w : Word) (s : State) : State :=
  let s := if fetchable s.pc then s else setPc 0x200 s
  let s := writeByte (s.pc.toNat + 1) (bytesOfWord w).2 (writeByte s.pc.toNat (bytesOfWord w).1 s)
  { s with
    extHi := max s.extHi (s.pc.toNat + 2)
    pending := s.pending.dropWhile (fun e => !e.isStep) }

end Sys2Proof.Machine
end

