-- ==== Sys2Proof/Machine/Operands.lean ====
section
/-! DEFINITION. The operand forms: immediates, the key index taken from a register, the addressing of I plus an offset,
and the digits and products that instructions form from a register's value (30_encoding.md R73, 43_index_memory.md R156,
45_keypad.md R186). -/

namespace Sys2Proof.Machine

/-- NNN written to a 16-bit register: the upper four bits are 0 (R73). -/
def zextNNN (nnn : BitVec 12) : Word := nnn.setWidth 16

/-- The base address of a data access: the value of I as a natural number, never reduced (R156, 20_memory.md R57). -/
def baseAddress (s : State) : Nat := s.index.toNat

/-- How many registers FX55 and FX65 move: the field X itself, plus 1 (43_index_memory.md R154). -/
def transferCount (x : Reg) : Nat := x.val + 1

/-- The key that EX9E and EXA1 test: VX mod 16 (R186, decision D10; log 11). -/
def keyIndex (b : Byte) : Key := (b.extractLsb' 0 4).toFin

/-- A key index as the value FX0A writes to VX: `zext_8(i)` (45_keypad.md R182). -/
def keyByte (k : Key) : Byte := BitVec.ofNat 8 k.val

/-- The target of BNNN: NNN + V0, not truncated to 12 bits (41_control_flow.md R113). -/
def jumpV0Target (nnn : BitVec 12) (v0 : Byte) : Word := zextNNN nnn + v0.zext

/-- The address FX29 forms: GLYPH_BASE + VX * 5 with the full 8-bit VX (43_index_memory.md R152, decision D11; log 12). -/
def glyphAddress (p : Params) (b : Byte) : Word := BitVec.ofNat 16 (p.glyphBase.val + b.toNat * 5)

/-- `v div 100` (43_index_memory.md R153). -/
def hundreds (b : Byte) : Byte := BitVec.ofNat 8 (b.toNat / 100)

/-- `(v div 10) mod 10` (R153). -/
def tens (b : Byte) : Byte := BitVec.ofNat 8 (b.toNat / 10 % 10)

/-- `v mod 10` (R153). -/
def units (b : Byte) : Byte := BitVec.ofNat 8 (b.toNat % 10)

/-- The row of the bitmap that a sprite's row lands on, wrapping (40_display.md R101, R102). -/
def wrapRow (y : Nat) : Fin 32 := ⟨y % 32, Nat.mod_lt _ (by decide)⟩

/-- The column of the bitmap that a sprite's column lands on, wrapping (R101, R102). -/
def wrapColumn (x : Nat) : Fin 64 := ⟨x % 64, Nat.mod_lt _ (by decide)⟩

/-- The sprite's bit in column offset `c` of a row byte: bit 7 is column 0, the leftmost (R103, decision D9; log 10). -/
def spriteBit (row : Byte) (c : Nat) : Bool := row.getLsbD (7 - c)

end Sys2Proof.Machine
end

