-- ==== Sys2Proof/Machine/Flags.lean ====
section
/-! DEFINITION. The flag values that six instructions leave in VF (10_state.md R23, 42_alu.md R142), each computed on the
operands before truncation. -/

namespace Sys2Proof.Machine

/-- 8XY4: 1 if VX + VY > 255, else 0 (42_alu.md R136). -/
def carryFlag (a b : Byte) : Byte := flagByte (a.toNat + b.toNat > 255)

/-- 8XY5 with (VX, VY), 8XY7 with (VY, VX): 0 if the first is less than the second (borrow), else 1 (R137, R139). -/
def noBorrowFlag (a b : Byte) : Byte := flagByte (!(a.toNat < b.toNat))

/-- 8XY6: the low bit before the shift (R138). -/
def lowBitFlag (b : Byte) : Byte := flagByte (b.getLsbD 0)

/-- 8XYE: the high bit before the shift (R140). -/
def highBitFlag (b : Byte) : Byte := flagByte (b.getLsbD 7)

/-- DXYN: 1 if any drawn bit met a set pixel, else 0 (40_display.md R101). -/
def collisionFlag (hit : Bool) : Byte := flagByte hit

end Sys2Proof.Machine
end

