-- ==== Sys2Proof/Machine/Alu.lean ====
section
/-! DEFINITION. Register load and ALU instructions: 6XNN, 7XNN, 8XY0 to 8XY7, 8XYE (42_alu.md). Arithmetic wraps modulo 256,
both sources are read before anything is written, and VF is written last (R142, R143). -/

namespace Sys2Proof.Machine

/-- 6XNN LD Vx, nn (R130). -/
def execLdImm (x : Reg) (nn : Byte) (s : State) : Result := next (writeV x nn s)

/-- 7XNN ADD Vx, nn: no flag change (R131). -/
def execAddImm (x : Reg) (nn : Byte) (s : State) : Result := next (writeV x (readV s x + nn) s)

/-- 8XY0 LD Vx, Vy (R132). -/
def execMov (x y : Reg) (s : State) : Result := next (writeV x (readV s y) s)

/-- 8XY1 OR Vx, Vy: VF is not changed (R133). -/
def execOr (x y : Reg) (s : State) : Result := next (writeV x (readV s x ||| readV s y) s)

/-- 8XY2 AND Vx, Vy: VF is not changed (R134). -/
def execAnd (x y : Reg) (s : State) : Result := next (writeV x (readV s x &&& readV s y) s)

/-- 8XY3 XOR Vx, Vy: VF is not changed (R135). -/
def execXor (x y : Reg) (s : State) : Result := next (writeV x (readV s x ^^^ readV s y) s)

/-- 8XY4 ADD Vx, Vy: VF <- carry (R136). -/
def execAddReg (x y : Reg) (s : State) : Result :=
  next (writeResultAndFlag x (readV s x + readV s y) (carryFlag (readV s x) (readV s y)) s)

/-- 8XY5 SUB Vx, Vy: VX - VY, VF <- no borrow (R137). -/
def execSub (x y : Reg) (s : State) : Result :=
  next (writeResultAndFlag x (readV s x - readV s y) (noBorrowFlag (readV s x) (readV s y)) s)

/-- 8XY6 SHR Vx, Vy: VY, not VX, is shifted; VF <- its low bit (R138). -/
def execShr (x y : Reg) (s : State) : Result :=
  next (writeResultAndFlag x (readV s y >>> 1) (lowBitFlag (readV s y)) s)

/-- 8XY7 SUBN Vx, Vy: VY - VX, VF <- no borrow (R139). -/
def execSubn (x y : Reg) (s : State) : Result :=
  next (writeResultAndFlag x (readV s y - readV s x) (noBorrowFlag (readV s y) (readV s x)) s)

/-- 8XYE SHL Vx, Vy: VY, not VX, is shifted; VF <- its high bit (R140). -/
def execShl (x y : Reg) (s : State) : Result :=
  next (writeResultAndFlag x (readV s y <<< 1) (highBitFlag (readV s y)) s)

end Sys2Proof.Machine
end

