-- ==== Sys2Proof/Machine/ControlFlow.lean ====
section
/-! DEFINITION. Control transfer: 00EE, 1NNN, 2NNN, BNNN, 3XNN, 4XNN, 5XY0, 9XY0 (41_control_flow.md). No instruction here
writes a V register, and no target is checked when it is written to PC (R118). -/

namespace Sys2Proof.Machine

/-- 00EE RET: PC <- the popped address; StackUnderflow when SP = 0 (R110). -/
def execRet (s : State) : Result := pop (fun target s => .next (setPc target s)) s

/-- 1NNN JP nnn: PC <- NNN (R111). -/
def execJp (nnn : BitVec 12) (s : State) : Result := .next (setPc (zextNNN nnn) s)

/-- 2NNN CALL nnn: push PC + 2, PC <- NNN; StackOverflow when SP = 16 (R112). -/
def execCall (nnn : BitVec 12) (s : State) : Result :=
  push (s.pc + 2) (fun s => .next (setPc (zextNNN nnn) s)) s

/-- BNNN JP V0, nnn: PC <- NNN + V0, always register 0 (R113). -/
def execJpV0 (nnn : BitVec 12) (s : State) : Result := .next (setPc (jumpV0Target nnn (readV s 0)) s)

/-- 3XNN SE Vx, nn: skip if VX = NN (R114). -/
def execSeImm (x : Reg) (nn : Byte) (s : State) : Result := skipIf (readV s x = nn) s

/-- 4XNN SNE Vx, nn: skip if VX != NN (R115). -/
def execSneImm (x : Reg) (nn : Byte) (s : State) : Result := skipIf (readV s x ≠ nn) s

/-- 5XY0 SE Vx, Vy: skip if VX = VY (R116). -/
def execSeReg (x y : Reg) (s : State) : Result := skipIf (readV s x = readV s y) s

/-- 9XY0 SNE Vx, Vy: skip if VX != VY (R117). -/
def execSneReg (x y : Reg) (s : State) : Result := skipIf (readV s x ≠ readV s y) s

end Sys2Proof.Machine
end

