-- ==== Sys2Proof/Machine/Display.lean ====
section
/-! DEFINITION. The display instructions 00E0 and DXYN (40_display.md). -/

namespace Sys2Proof.Machine

/-- 00E0 CLS: every pixel 0; VF is not written (R100). -/
def execCls (s : State) : Result := next (setFb clearFb s)

/-- A bitmap being drawn on, and whether a collision was seen so far (R101). -/
abbrev Canvas := Vector (BitVec 64) 32 × Bool

/-- One sprite bit at one pixel: a 1 bit toggles it, and collides if it was set; a 0 bit does nothing (R101, R104). -/
def drawPixel (y : Fin 32) (x : Fin 64) (bit : Bool) (cv : Canvas) : Canvas :=
  if bit then (togglePixel y x cv.1, cv.2 || pixelAt cv.1 y x) else cv

/-- The column offsets of a sprite row. -/
def spriteColumns : List Nat := [0, 1, 2, 3, 4, 5, 6, 7]

/-- One row of a sprite: its eight bits from column `x0`, wrapping (R101, R102). -/
def drawRow (x0 : Nat) (y : Fin 32) (row : Byte) (cv : Canvas) : Canvas :=
  spriteColumns.foldl (fun cv c => drawPixel y (wrapColumn (x0 + c)) (spriteBit row c) cv) cv

/-- The rows of a sprite from row `y0` down, wrapping (R101, R102). -/
def drawRows (x0 : Nat) : Nat → List Byte → Canvas → Canvas
  | _, [], cv => cv
  | y0, row :: rows, cv => drawRows x0 (y0 + 1) rows (drawRow x0 (wrapRow y0) row cv)

/-- The `n` row bytes of a sprite from address `base` (R101). -/
def spriteRows (s : State) (base n : Nat) : List Byte := (List.range n).map (fun r => readByte s (base + r))

/-- DXYN DRW Vx, Vy, n: all operands are read before anything is written, the whole access is checked first, and VF,
written last, tells a collision (R101, R105; logs 5, 10). -/
def execDrw (x y : Reg) (n : Nat) (s : State) : Result :=
  withAccess (baseAddress s) n (fun s =>
    let cv := drawRows (readV s x).toNat (readV s y).toNat (spriteRows s (baseAddress s) n) (s.fb, false)
    next (writeV .vf (collisionFlag cv.2) (setFb cv.1 s))) s

end Sys2Proof.Machine
end

