-- ==== Sys2Proof/Machine/Halt.lean ====
section
/-! DEFINITION. The halt sentinel FFFF and what an Unknown word does (46_halt_unknown.md). -/

namespace Sys2Proof.Machine

/-- FFFF HALT: the Step returns Halted; no state is changed and PC is not advanced (R190; log 21). The rule gives this
end the same for every state, so the state is not read. -/
def execHalt (_s : State) : Result := returnHalted

/-- An Unknown word: UnimplementedOpcode(word), always; no state is changed (R191). -/
def executeUnknown (w : Word) : Result := raise (.unimplementedOpcode w)

end Sys2Proof.Machine
end

