-- ==== Sys2Proof/Machine/IndexMemory.lean ====
section
/-! DEFINITION. Index register and memory instructions: ANNN, FX1E, FX29, FX33, FX55, FX65 (43_index_memory.md). None writes VF
as a flag; a data access that would leave [0, 4096) raises before anything is written (20_memory.md R57, R58; log 5). -/

namespace Sys2Proof.Machine

/-- ANNN LD I, nnn (R150). -/
def execLdI (nnn : BitVec 12) (s : State) : Result := next (setIndex (zextNNN nnn) s)

/-- FX1E ADD I, Vx: modulo 65536, no bound check, no flag (R151; log 13). -/
def execAddI (x : Reg) (s : State) : Result := next (setIndex (s.index + (readV s x).zext) s)

/-- FX29 LD F, Vx: I <- GLYPH_BASE + VX * 5 (R152; log 12). -/
def execLdF (x : Reg) (s : State) : Result := next (setIndex (glyphAddress s.params (readV s x)) s)

/-- The three stores of FX33, hundreds first (R153). -/
def storeDigits (base : Nat) (b : Byte) (s : State) : State :=
  writeByte (base + 2) (units b) (writeByte (base + 1) (tens b) (writeByte base (hundreds b) s))

/-- FX33 LD B, Vx: the decimal digits of VX at I, I+1, I+2; I is not changed (R153). -/
def execBcd (x : Reg) (s : State) : Result :=
  withAccess (baseAddress s) 3 (fun s => next (storeDigits (baseAddress s) (readV s x) s)) s

/-- Store registers in order, register `r` at `base + r` (R154). -/
def storeRegsAt (base : Nat) (rs : List Reg) (s : State) : State :=
  rs.foldl (fun t r => writeByte (base + r.val) (readV t r) t) s

/-- Load registers in order, register `r` from `base + r` (R155). -/
def loadRegsAt (base : Nat) (rs : List Reg) (s : State) : State :=
  rs.foldl (fun t r => writeV r (readByte t (base + r.val)) t) s

/-- I after FX55 and FX65: I + X + 1, at most 4096 (R154, R155). -/
def advanceIndex (base : Nat) (x : Reg) (s : State) : State :=
  setIndex (BitVec.ofNat 16 (base + transferCount x)) s

/-- FX55 LD [I], Vx: store V0 to VX at I to I+X; I <- I+X+1 (R154). -/
def execStoreRegs (x : Reg) (s : State) : Result :=
  withAccess (baseAddress s) (transferCount x)
    (fun s => next (advanceIndex (baseAddress s) x (storeRegsAt (baseAddress s) (regsUpTo x) s))) s

/-- FX65 LD Vx, [I]: load V0 to VX from I to I+X; I <- I+X+1 (R155). -/
def execLoadRegs (x : Reg) (s : State) : Result :=
  withAccess (baseAddress s) (transferCount x)
    (fun s => next (advanceIndex (baseAddress s) x (loadRegsAt (baseAddress s) (regsUpTo x) s))) s

end Sys2Proof.Machine
end

