-- ==== Sys2Proof/Machine/Keypad.lean ====
section
/-! DEFINITION. Key-input instructions: EX9E, EXA1, FX0A, and the key-wait state machine (45_keypad.md). -/

namespace Sys2Proof.Machine

/-- EX9E SKP Vx: skip if key VX mod 16 is pressed (R180, R186; log 11). -/
def execSkp (x : Reg) (s : State) : Result := skipIf (keyDown s (keyIndex (readV s x))) s

/-- EXA1 SKNP Vx: skip if key VX mod 16 is not pressed (R181, R186; log 11). -/
def execSknp (x : Reg) (s : State) : Result := skipIf (!keyDown s (keyIndex (readV s x))) s

/-- FX0A polling for a press: the lowest pressed key goes to VX and is latched; PC does not advance (R183). -/
def pollPress (x : Reg) (s : State) : Result :=
  match lowestPressed s with
  | some k => .next (setKw (.awaitingRelease k) (writeV x (keyByte k) s))
  | none => .next (setKw .awaitingPress s)

/-- FX0A polling for the release of the latched key `k`; PC advances only when it is up (R184). -/
def pollRelease (k : Key) (s : State) : Result :=
  if keyDown s k then .next s else next (setKw .idle s)

/-- FX0A LD Vx, K: one non-blocking poll per Step, always Continue (R182). -/
def execLdVxK (x : Reg) (s : State) : Result :=
  match s.kw with
  | .idle => pollPress x s
  | .awaitingPress => pollPress x s
  | .awaitingRelease k => pollRelease k s

end Sys2Proof.Machine
end

