-- ==== Sys2Proof/Machine/RandomTimers.lean ====
section
/-! DEFINITION. Random and timer instructions: CXNN, FX07, FX15, FX18 (44_random_timers.md). -/

namespace Sys2Proof.Machine

/-- CXNN RND Vx, nn: the random byte of this Step, masked (R170; log 19). -/
def execRnd (x : Reg) (nn : Byte) (s : State) : Result := next (writeV x (s.rnd &&& nn) s)

/-- FX07 LD Vx, DT (R171). -/
def execLdVxDt (x : Reg) (s : State) : Result := next (writeV x s.dt s)

/-- FX15 LD DT, Vx (R172). -/
def execLdDtVx (x : Reg) (s : State) : Result := next (setDt (readV s x) s)

/-- FX18 LD ST, Vx (R173). -/
def execLdStVx (x : Reg) (s : State) : Result := next (setSt (readV s x) s)

end Sys2Proof.Machine
end

