-- ==== Sys2Proof/Machine/Events.lean ====
section
/-! DEFINITION. What the environment does besides Step: Load (70_reset_and_hazards.md R230, R231), TickTimers and SetKey
(60_exceptions.md R214, R216), the observation Snapshot (R219), and the port-level codes of an outcome (R201, R222). -/

namespace Sys2Proof.Machine

/-! ### Load -/

/-- Load: the machine created with this image and these parameters, or RomTooLarge and no machine (R230, R231). -/
def load (p : Params) (image : List Byte) : Result :=
  if image.length > Config.romMax then .fault .romTooLarge
  else .next { State.reset with
    params := p
    mem := Memory.ofBytes p Config.origin image
    extHi := Config.origin + image.length }

/-! ### TickTimers and SetKey -/

/-- A timer one tick later: decremented, floored at 0 (R214). -/
def tickDown (t : Byte) : Byte := if t.toNat > 0 then t - 1 else 0

/-- TickTimers: both timers, each floored on its own; nothing else (R214). -/
def tickTimers (s : State) : State := { s with dt := tickDown s.dt, st := tickDown s.st }

/-- SetKey(k, pressed): one bit of KEY; nothing else (R216). -/
def setKey (k : Key) (pressed : Bool) (s : State) : State := setKeyBit k pressed s

/-- A Step's random byte appears on its input (00_scope.md R15, R222; log 19). -/
def latchRnd (r : Byte) (s : State) : State := { s with rnd := r }

/-! ### Snapshot -/

/-- What Snapshot returns (R219); MEM, KW and EXT_HI are not in it. -/
structure Snapshot where
  pc           : Word
  index        : Word
  stackPointer : Nat
  registers    : List Byte
  stack        : List Word
  delayTimer   : Byte
  soundTimer   : Byte
  /-- The 2048 pixels, row-major: pixel (y, x) at y * 64 + x (10_state.md R30). -/
  bitmap       : List Bool
  keypad       : List Bool
  deriving DecidableEq, Repr

/-- One row of the bitmap from column 0 to 63. -/
def bitmapRow (row : BitVec 64) : List Bool := (List.range 64).map row.getLsbD

/-- Snapshot: a read-only observation (R219). -/
def snapshot (s : State) : Snapshot :=
  { pc := s.pc
    index := s.index
    stackPointer := s.sp.val
    registers := s.v.toList
    stack := s.stack.toList
    delayTimer := s.dt
    soundTimer := s.st
    bitmap := s.fb.toList.flatMap bitmapRow
    keypad := s.key.toList }

/-! ### Port-level codes (log 20) -/

/-- The port `outcome`: 0 Continue, 1 Halted, 2 Error (R222). -/
def outcomeCode : Result → Option (BitVec 2)
  | .next _ => some 0
  | .fault .halted => some 1
  | .fault .stackOverflow => some 2
  | .fault .stackUnderflow => some 2
  | .fault (.unimplementedOpcode _) => some 2
  | .fault (.memoryAccessOutOfBounds _) => some 2
  | .fault .romTooLarge => some 2
  | .refused _ => none

/-- The port `err_kind`: the codes of R201; none where the outcome is not an error. -/
def errorCode : Fault → Option (BitVec 3)
  | .halted => none
  | .stackOverflow => some 1
  | .stackUnderflow => some 2
  | .unimplementedOpcode _ => some 3
  | .memoryAccessOutOfBounds _ => some 4
  | .romTooLarge => some 5

/-- The port `err_info`: the info R201 records, where it records one. -/
def errorInfo : Fault → Option (BitVec 16)
  | .halted => none
  | .stackOverflow => none
  | .stackUnderflow => none
  | .unimplementedOpcode w => some w
  | .memoryAccessOutOfBounds a => some (BitVec.ofNat 16 a)
  | .romTooLarge => none

end Sys2Proof.Machine
end

