-- ==== Sys2Proof/Machine/Cycle.lean ====
section
/-! DEFINITION. The Step cycle (30_encoding.md R76), one event of the environment (00_scope.md R10 to R14), and sequences of
events. -/

namespace Sys2Proof.Machine

/-- PC is inside the loaded extent [0x200, EXT_HI) (20_memory.md R59, decision D14; log 15). -/
def inExtent (s : State) : Bool := Config.origin ≤ s.pc.toNat && s.pc.toNat < s.extHi

/-- Run what the decoder made of the fetched word (R76 steps 4 and 5). -/
def executeWord (w : Word) (s : State) : Result :=
  match decode w with
  | .ok i => exec i s
  | .unknown u => executeUnknown u

/-- One fetch-decode-execute cycle with the random byte already on its input: extent check, fetch check, fetch, decode,
execute (R76; logs 15, 16). -/
def cycle (s : State) : Result :=
  if !inExtent s then returnHalted
  else if s.pc.toNat + 1 > 4095 then raise (.memoryAccessOutOfBounds 4096)
  else executeWord (fetchWord s) s

/-- What one event does to the machine (R10 to R12): only a Step can end in anything but a next state. -/
def perform (e : Event) (s : State) : Result :=
  match e with
  | .step r => cycle (latchRnd r s)
  | .tickTimers => .next (tickTimers s)
  | .setKey k pressed => .next (setKey k pressed s)

/-- The next event of the environment: the oldest pending one, and a Step with a free random byte when none is pending
(R14, R15; logs 18, 19). -/
def nextEvent (s : State) : Result :=
  match s.pending with
  | [] => perform (.step (Config.rndByte s.rndDraws)) { s with rndDraws := s.rndDraws + 1 }
  | e :: es => perform e { s with pending := es }

/-- The state an event leaves: a Step that does not answer Continue leaves the state it was given
(46_halt_unknown.md R190, 60_exceptions.md R205, R206). -/
def afterEvent (s : State) (e : Event) : State :=
  match perform e s with
  | .next t => t
  | .fault _ => s
  | .refused _ => s

/-- The state after a sequence of events, each applied to the state the previous one left (00_scope.md R14). -/
def afterEvents (s : State) (es : List Event) : State := es.foldl afterEvent s

end Sys2Proof.Machine
end

