-- ==== Sys2Proof/Machine/Step.lean ====
section
/-! DEFINITION. One step of the machine: one event (00_scope.md R14), and where the host places an instruction word. -/

namespace Sys2Proof.Machine

/-- One step: the next event of the environment. -/
def step (s : State) : Host.Outcome State Fault Refusal := nextEvent s

/-- `s` with the instruction whose bits are `w` (those above `nbits` zero) where the very next step fetches it; it stands
for Load, by which every program comes to run (70_reset_and_hazards.md R230; log 23). -/
def State.withFetchWord (s : State) (nbits w : Nat) : State :=
  placeWord (BitVec.ofNat 16 (w % 2 ^ nbits)) s

end Sys2Proof.Machine
end

