-- ==== Sys2Proof/Safety.lean ====
section
/-! DEFINITION. The terms claims are written in: the pieces of state and what an instruction may write (10_state.md R20), the
invariants of a run (R41), what a sprite covers (40_display.md R101 to R104), and runs that end without an error. -/

namespace Sys2Proof.Safety

open Sys2Proof.Machine

/-! ### Pieces of state and frames -/

/-- One piece of the state, as fine as an instruction can write it. -/
inductive Piece where
  | reg (r : Reg)
  | index
  | pc
  | sp
  | slot (j : Fin 16)
  | pixel (y : Fin 32) (x : Fin 64)
  | dt
  | st
  | key (k : Key)
  | kw
  | byte (a : Nat)
  | extHi
  | params
  | rnd
  | pending
  | rndDraws

/-- A piece reads the same in two states. -/
def Piece.Same (s t : State) : Piece → Prop
  | .reg r => readV t r = readV s r
  | .index => t.index = s.index
  | .pc => t.pc = s.pc
  | .sp => t.sp = s.sp
  | .slot j => t.stack[j] = s.stack[j]
  | .pixel y x => pixelAt t.fb y x = pixelAt s.fb y x
  | .dt => t.dt = s.dt
  | .st => t.st = s.st
  | .key k => keyDown t k = keyDown s k
  | .kw => t.kw = s.kw
  | .byte a => readByte t a = readByte s a
  | .extHi => t.extHi = s.extHi
  | .params => t.params = s.params
  | .rnd => t.rnd = s.rnd
  | .pending => t.pending = s.pending
  | .rndDraws => t.rndDraws = s.rndDraws

/-- Every piece outside `allowed` reads the same in both states. -/
def ChangesOnly (allowed : Piece → Prop) (s t : State) : Prop := ∀ p, ¬ allowed p → p.Same s t

/-- The registers an instruction writes: its destination, and VF for the six of R23. -/
def writesReg : Instr → Reg → Prop
  | .ldImm x _, r | .addImm x _, r | .mov x _, r | .or x _, r | .and x _, r | .xor x _, r => r = x
  | .addReg x _, r | .sub x _, r | .shr x _, r | .subn x _, r | .shl x _, r => r = x ∨ r = .vf
  | .rnd x _, r | .ldVxDt x, r | .ldVxK x, r => r = x
  | .drw _ _ _, r => r = .vf
  | .loadRegs x, r => r ≤ x
  | .cls, _ | .ret, _ | .jp _, _ | .call _, _ | .seImm _ _, _ | .sneImm _ _, _ | .seReg _ _, _ | .sneReg _ _, _
  | .ldI _, _ | .jpV0 _, _ | .skp _, _ | .sknp _, _ | .ldDtVx _, _ | .ldStVx _, _ | .addI _, _ | .ldF _, _
  | .bcd _, _ | .storeRegs _, _ | .halt, _ => False

/-- What an instruction may write besides PC and the registers: R20's column "written by", with the bytes FX33 and
FX55 store to (43_index_memory.md R153, R154) computed from I. -/
def writesOther (s : State) : Instr → Piece → Prop
  | .cls, p => ∃ y x, p = .pixel y x
  | .drw _ _ _, p => ∃ y x, p = .pixel y x
  | .ret, p => p = .sp
  | .call _, p => p = .sp ∨ ∃ j : Fin 16, j.val = s.sp.val ∧ p = .slot j
  | .ldI _, p | .addI _, p | .ldF _, p | .loadRegs _, p => p = .index
  | .storeRegs x, p => p = .index ∨ ∃ a, baseAddress s ≤ a ∧ a ≤ baseAddress s + x.val ∧ p = .byte a
  | .bcd _, p => ∃ a, baseAddress s ≤ a ∧ a ≤ baseAddress s + 2 ∧ p = .byte a
  | .ldDtVx _, p => p = .dt
  | .ldStVx _, p => p = .st
  | .ldVxK _, p => p = .kw
  | .jp _, _ | .seImm _ _, _ | .sneImm _ _, _ | .seReg _ _, _ | .ldImm _ _, _ | .addImm _ _, _ | .mov _ _, _
  | .or _ _, _ | .and _ _, _ | .xor _ _, _ | .addReg _ _, _ | .sub _ _, _ | .shr _ _, _ | .subn _ _, _ | .shl _ _, _
  | .sneReg _ _, _ | .jpV0 _, _ | .rnd _ _, _ | .skp _, _ | .sknp _, _ | .ldVxDt _, _ | .halt, _ => False

/-- What an instruction may write at all. -/
def mayWrite (s : State) (i : Instr) (p : Piece) : Prop :=
  p = .pc ∨ (∃ r, writesReg i r ∧ p = .reg r) ∨ writesOther s i p

/-- Only V and PC differ between two states. -/
def OnlyVAndPc (s t : State) : Prop := t = { s with v := t.v, pc := t.pc }

/-! ### Flag writers (10_state.md R23) -/

/-- The six instructions that write VF as a side effect (R23). -/
def writesFlag : Instr → Bool
  | .addReg _ _ => true
  | .sub _ _ => true
  | .shr _ _ => true
  | .subn _ _ => true
  | .shl _ _ => true
  | .drw _ _ _ => true
  | .cls => false
  | .ret => false
  | .jp _ => false
  | .call _ => false
  | .seImm _ _ => false
  | .sneImm _ _ => false
  | .seReg _ _ => false
  | .ldImm _ _ => false
  | .addImm _ _ => false
  | .mov _ _ => false
  | .or _ _ => false
  | .and _ _ => false
  | .xor _ _ => false
  | .sneReg _ _ => false
  | .ldI _ => false
  | .jpV0 _ => false
  | .rnd _ _ => false
  | .skp _ => false
  | .sknp _ => false
  | .ldVxDt _ => false
  | .ldVxK _ => false
  | .ldDtVx _ => false
  | .ldStVx _ => false
  | .addI _ => false
  | .ldF _ => false
  | .bcd _ => false
  | .storeRegs _ => false
  | .loadRegs _ => false
  | .halt => false

/-! ### What a sprite covers (40_display.md R101 to R104) -/

/-- Pixel (py, px) gets a 1 bit of the `n`-row sprite at I drawn at column VX, row VY, wrapping (R101, R102, R103). -/
def spriteCovers (s : State) (x y : Reg) (n : Nat) (py : Fin 32) (px : Fin 64) : Bool :=
  (List.range n).any fun r => (List.range 8).any fun c =>
    py.val == ((readV s y).toNat + r) % 32 && px.val == ((readV s x).toNat + c) % 64
      && (readByte s (baseAddress s + r)).getLsbD (7 - c)

/-! ### Invariants of a run (10_state.md R41) -/

/-- MEM keeps its canonical form. -/
def MemoryOk (s : State) : Prop := Memory.wf s.params s.mem

/-- R41 (b): 0x200 <= EXT_HI <= 0x1000. -/
def ExtentOk (s : State) : Prop := 0x200 ≤ s.extHi ∧ s.extHi ≤ 0x1000

/-- R41 (d): every live stack entry is at most 4096. -/
def StackOk (s : State) : Prop := ∀ j : Fin 16, j.val < s.sp.val → (s.stack[j]).toNat ≤ 4096

/-- R41 (e) and (f): while KW is not Idle, PC is inside the extent at an FX0A, and its V[X] holds the latched key. -/
def KeyWaitOk (s : State) : Prop :=
  s.kw ≠ .idle →
    inExtent s = true ∧ s.pc.toNat ≤ 4094 ∧
      ∃ x, decode (fetchWord s) = .ok (.ldVxK x) ∧ ∀ k, s.kw = .awaitingRelease k → readV s x = keyByte k

/-- The invariant of every reachable state. -/
structure Inv (s : State) : Prop where
  memory  : MemoryOk s
  extent  : ExtentOk s
  stack   : StackOk s
  keyWait : KeyWaitOk s

/-! ### PC and errors, instruction by instruction -/

/-- How an instruction that completes leaves PC (10_state.md R25). -/
def pcAfter (s t : State) : Instr → Prop
  | .seImm x nn => t.pc = if readV s x = nn then s.pc + 4 else s.pc + 2
  | .sneImm x nn => t.pc = if readV s x = nn then s.pc + 2 else s.pc + 4
  | .seReg x y => t.pc = if readV s x = readV s y then s.pc + 4 else s.pc + 2
  | .sneReg x y => t.pc = if readV s x = readV s y then s.pc + 2 else s.pc + 4
  | .skp x => t.pc = if keyDown s (keyIndex (readV s x)) then s.pc + 4 else s.pc + 2
  | .sknp x => t.pc = if keyDown s (keyIndex (readV s x)) then s.pc + 2 else s.pc + 4
  | .jp nnn => t.pc.toNat = nnn.toNat
  | .call nnn => t.pc.toNat = nnn.toNat
  | .jpV0 nnn => t.pc.toNat = nnn.toNat + (readV s 0).toNat
  | .ret => ∃ j : Fin 16, j.val + 1 = s.sp.val ∧ t.pc = s.stack[j]
  | .ldVxK _ => t.pc = if ∃ k, s.kw = .awaitingRelease k ∧ keyDown s k = false then s.pc + 2 else s.pc
  | .halt => False
  | .cls => t.pc = s.pc + 2
  | .ldImm _ _ => t.pc = s.pc + 2
  | .addImm _ _ => t.pc = s.pc + 2
  | .mov _ _ => t.pc = s.pc + 2
  | .or _ _ => t.pc = s.pc + 2
  | .and _ _ => t.pc = s.pc + 2
  | .xor _ _ => t.pc = s.pc + 2
  | .addReg _ _ => t.pc = s.pc + 2
  | .sub _ _ => t.pc = s.pc + 2
  | .shr _ _ => t.pc = s.pc + 2
  | .subn _ _ => t.pc = s.pc + 2
  | .shl _ _ => t.pc = s.pc + 2
  | .ldI _ => t.pc = s.pc + 2
  | .rnd _ _ => t.pc = s.pc + 2
  | .drw _ _ _ => t.pc = s.pc + 2
  | .ldVxDt _ => t.pc = s.pc + 2
  | .ldDtVx _ => t.pc = s.pc + 2
  | .ldStVx _ => t.pc = s.pc + 2
  | .addI _ => t.pc = s.pc + 2
  | .ldF _ => t.pc = s.pc + 2
  | .bcd _ => t.pc = s.pc + 2
  | .storeRegs _ => t.pc = s.pc + 2
  | .loadRegs _ => t.pc = s.pc + 2

/-- When an instruction ends without Continue, and how (60_exceptions.md R201, R203, R207; 46_halt_unknown.md R190). -/
def endsWith (s : State) (e : Fault) : Instr → Prop
  | .ret => s.sp.val = 0 ∧ e = .stackUnderflow
  | .call _ => s.sp.val = 16 ∧ e = .stackOverflow
  | .drw _ _ n => 0 < n ∧ 4095 < s.index.toNat + n - 1 ∧ e = .memoryAccessOutOfBounds (max s.index.toNat 4096)
  | .bcd _ => 4095 < s.index.toNat + 2 ∧ e = .memoryAccessOutOfBounds (max s.index.toNat 4096)
  | .storeRegs x => 4095 < s.index.toNat + x.val ∧ e = .memoryAccessOutOfBounds (max s.index.toNat 4096)
  | .loadRegs x => 4095 < s.index.toNat + x.val ∧ e = .memoryAccessOutOfBounds (max s.index.toNat 4096)
  | .halt => e = .halted
  | .cls | .jp _ | .seImm _ _ | .sneImm _ _ | .seReg _ _ | .ldImm _ _ | .addImm _ _ | .mov _ _ | .or _ _ | .and _ _
  | .xor _ _ | .addReg _ _ | .sub _ _ | .shr _ _ | .subn _ _ | .shl _ _ | .sneReg _ _ | .ldI _ | .jpV0 _ | .rnd _ _
  | .skp _ | .sknp _ | .ldVxDt _ | .ldVxK _ | .ldDtVx _ | .ldStVx _ | .addI _ | .ldF _ => False

/-! ### Runs -/

/-- A Step from this state ends in no error: it continues, or the run ends normally (46_halt_unknown.md R192). -/
def SafeStep (s : State) : Prop := ∀ e, cycle s = .fault e → e = .halted

/-- What 70_reset_and_hazards.md R236 (b) to (d) asks of a program at one Step: the word is an instruction, and its
instruction meets no error condition. -/
def MeetsR236 (s : State) : Prop :=
  s.pc.toNat ≤ 4094 ∧ ∃ i, decode (fetchWord s) = .ok i ∧ ∀ e, e ≠ .halted → ¬ endsWith s e i

/-- Execute calls one after another (41_control_flow.md R112). -/
def callInTurn : List (BitVec 12) → State → Result
  | [], s => .next s
  | nnn :: rest, s =>
    match exec (.call nnn) s with
    | .next t => callInTurn rest t
    | .fault e => .fault e
    | .refused r => .refused r

end Sys2Proof.Safety
end

