-- ==== Sys2Proof/Certificates/Slice0/Obligations.lean ====
section
/-! DEFINITION. The statements for the provers. -/

open Sys2Proof Sys2Proof.Machine Sys2Proof.Safety

/-! ### Encoding -/

/-- Words written out bit by bit from the formats of 30_encoding.md R72 and R77 decode to what they stand for. The words of
group 0 and the low nibbles of groups 5 and 9 are the spec's decisions D2 and D3 (logs 2, 3). -/
def Obligations.WrittenOutWordsDecode : Prop :=
  decode 0b0001101010111100 = .ok (.jp 0xABC) ∧ decode 0b0000000011100000 = .ok .cls
    ∧ decode 0b0101101010110000 = .ok (.seReg 10 11) ∧ decode 0b1000101010110111 = .ok (.subn 10 11)
    ∧ decode 0b1101000000011111 = .ok (.drw 0 1 15) ∧ decode 0b1110111110100001 = .ok (.sknp 15)
    ∧ decode 0b1111001001010101 = .ok (.storeRegs 2) ∧ decode 0b1111111111111111 = .ok .halt
    ∧ decode 0b0000000000000000 = .unknown 0

/-- No bit of an encoding is dropped: decoding the word of a well-formed instruction gives it back (R71 to R75). -/
def Obligations.DecodeOfEncodeIsTheInstruction : Prop :=
  ∀ i : Instr, i.WellFormed → decode (encode i) = .ok i

/-- Each word has one meaning and each instruction one word: encoding what a word decodes to gives the word back. -/
def Obligations.EncodeOfDecodeIsTheWord : Prop :=
  ∀ (w : Word) (i : Instr), decode w = .ok i → encode i = w ∧ i.WellFormed

/-- R77: a word is the instruction of a row exactly when it agrees with the row under its mask, and a word of no row is
Unknown. -/
def Obligations.DecodeFollowsTheOpcodeMap : Prop :=
  ∀ w : Word,
    (∀ i, decode w = .ok i → ∃ r ∈ opcodeRows, r.number = i.rowNumber ∧ r.covers w = true)
    ∧ (∀ r ∈ opcodeRows, r.covers w = true → ∃ i, decode w = .ok i ∧ i.rowNumber = r.number)
    ∧ ((∀ r ∈ opcodeRows, r.covers w = false) → decode w = .unknown w)

/-- No word lies in two rows of the opcode map (R75's last sentence, an inference of the spec). -/
def Obligations.NoWordLiesInTwoRows : Prop :=
  ∀ (w : Word), ∀ r ∈ opcodeRows, ∀ q ∈ opcodeRows, r.covers w = true → q.covers w = true → r = q

/-- The Unknown words are exactly those R79 lists (an inference of the spec), each answered with the whole word. -/
def Obligations.UnknownWordsAreTheListedOnes : Prop :=
  ∀ w : Word,
    ((∃ u, decode w = .unknown u) ↔
      (w.toNat / 4096 = 0 ∧ w.toNat ≠ 0x00E0 ∧ w.toNat ≠ 0x00EE)
      ∨ (w.toNat / 4096 = 5 ∧ w.toNat % 16 ≠ 0)
      ∨ (w.toNat / 4096 = 8 ∧ w.toNat % 16 ∈ [8, 9, 10, 11, 12, 13, 15])
      ∨ (w.toNat / 4096 = 9 ∧ w.toNat % 16 ≠ 0)
      ∨ (w.toNat / 4096 = 14 ∧ w.toNat % 256 ∉ [0x9E, 0xA1])
      ∨ (w.toNat / 4096 = 15 ∧ w.toNat % 256 ∉ [0x07, 0x0A, 0x15, 0x18, 0x1E, 0x29, 0x33, 0x55, 0x65] ∧ w.toNat ≠ 0xFFFF))
    ∧ ∀ u, decode w = .unknown u → u = w

/-! ### The Step cycle and the events -/

/-- R76: the extent check, the fetch check, the word MEM[pc] * 256 + MEM[pc + 1], the decoder, and then the instruction's
own meaning on the state with this Step's random byte. (The order of the two bytes is decision D1, log 1.) -/
def Obligations.StepRunsTheDecodedInstruction : Prop :=
  ∀ (s : State) (r : Byte) (es : List Event), s.pending = .step r :: es →
    (s.pc.toNat < 0x200 ∨ s.extHi ≤ s.pc.toNat → step s = .fault .halted)
    ∧ (0x200 ≤ s.pc.toNat → s.pc.toNat < s.extHi → 4095 < s.pc.toNat + 1 →
        step s = .fault (.memoryAccessOutOfBounds 4096))
    ∧ (0x200 ≤ s.pc.toNat → s.pc.toNat < s.extHi → s.pc.toNat + 1 ≤ 4095 →
        ∀ w : Word, w.toNat = (readByte s s.pc.toNat).toNat * 256 + (readByte s (s.pc.toNat + 1)).toNat →
          (∀ i, decode w = .ok i → step s = exec i { s with rnd := r, pending := es })
          ∧ (decode w = .unknown w → step s = .fault (.unimplementedOpcode w)))

/-- The model's choice (logs 18, 19): with no event pending the environment issues a Step whose random byte is free. -/
def Obligations.StepWithNothingPendingIsAStepEvent : Prop :=
  ∀ s : State, s.pending = [] →
    step s = step { s with pending := [.step (Config.rndByte s.rndDraws)], rndDraws := s.rndDraws + 1 }

/-- R214: TickTimers decrements both timers, each floored at 0 on its own, touches nothing else and never fails. -/
def Obligations.TickTimersDecrementsBothFlooredAtZero : Prop :=
  ∀ (s : State) (es : List Event), s.pending = .tickTimers :: es →
    ∃ t, step s = .next t ∧ t.dt.toNat = s.dt.toNat - 1 ∧ t.st.toNat = s.st.toNat - 1
      ∧ t = { s with dt := t.dt, st := t.st, pending := es }

/-- After n ticks each timer has lost n, floored at 0, and nothing else has changed (R214). -/
def Obligations.ManyTicksRunTheTimersDownToZero : Prop :=
  ∀ (n : Nat) (s : State),
    let t := afterEvents s (List.replicate n .tickTimers)
    t.dt.toNat = s.dt.toNat - n ∧ t.st.toNat = s.st.toNat - n ∧ t = { s with dt := t.dt, st := t.st }

/-- R216: SetKey changes exactly one bit of KEY. That the index is in range is the spec's decision D26 (log 24). -/
def Obligations.SetKeyChangesOneKey : Prop :=
  ∀ (s : State) (k : Key) (b : Bool) (es : List Event), s.pending = .setKey k b :: es →
    ∃ t, step s = .next t ∧ keyDown t k = b ∧ (∀ j, j ≠ k → keyDown t j = keyDown s j)
      ∧ t = { s with key := t.key, pending := es }

/-- Once a Step has answered Halted or an error, every later Step answers the same, whatever events come between
(46_halt_unknown.md R192, 60_exceptions.md R206: inferences and a decision of the spec, log 21). -/
def Obligations.EndedRunsStayEnded : Prop :=
  ∀ (s : State) (r : Byte) (e : Fault), perform (.step r) s = .fault e →
    ∀ (es : List Event) (q : Byte), perform (.step q) (afterEvents s es) = .fault e

/-- A run of `step` over scripted events is that sequence of events, each applied to the state the previous one left
(00_scope.md R14; the script is the model's choice, log 18). -/
def Obligations.ScriptedRunIsTheEventSequence : Prop :=
  ∀ (es : List Event) (s t : State), s.pending = es →
    Host.Core.run Sys2Proof.core es.length s = .next t → t = afterEvents { s with pending := [] } es

/-- R219: Snapshot returns PC, I, SP, V, STACK, DT, ST, FB (row-major) and KEY as they are, and does not depend on MEM, KW
or EXT_HI. -/
def Obligations.SnapshotShowsExactlyTheListedState : Prop :=
  ∀ s : State,
    let q := snapshot s
    q.pc = s.pc ∧ q.index = s.index ∧ q.stackPointer = s.sp.val ∧ q.delayTimer = s.dt ∧ q.soundTimer = s.st
    ∧ q.registers.length = 16 ∧ (∀ r : Reg, q.registers[r.val]? = some (readV s r))
    ∧ q.stack.length = 16 ∧ (∀ j : Fin 16, q.stack[j.val]? = some s.stack[j])
    ∧ q.bitmap.length = 2048 ∧ (∀ (y : Fin 32) (x : Fin 64), q.bitmap[y.val * 64 + x.val]? = some (pixelAt s.fb y x))
    ∧ q.keypad.length = 16 ∧ (∀ k : Key, q.keypad[k.val]? = some (keyDown s k))
    ∧ ∀ m k e, snapshot { s with mem := m, kw := k, extHi := e } = q

/-! ### Reset and Load -/

/-- R231: Load fails with RomTooLarge exactly for images above 3584 bytes; one of exactly 3584 fills 0x200 to
0xFFF and gives EXT_HI = 0x1000. -/
def Obligations.LoadFailsExactlyAboveRomMax : Prop :=
  ∀ (p : Params) (image : List Byte),
    (3584 < image.length → load p image = .fault .romTooLarge)
    ∧ (image.length ≤ 3584 → ∃ s, load p image = .next s ∧ s.extHi = 0x200 + image.length)
    ∧ (image.length = 3584 → ∃ s, load p image = .next s ∧ s.extHi = 0x1000
        ∧ ∀ (k : Nat) (h : k < image.length), readByte s (0x200 + k) = image[k])

/-- R230: what Load leaves. The zeros (of V, I, STACK, FB, DT, ST, KEY and of memory outside the table and the image) are
the spec's decision D7, and the glyph table is a parameter, decision D6 (logs 6, 7, 8). -/
def Obligations.LoadPlacesGlyphsAndImage : Prop :=
  ∀ (p : Params) (image : List Byte), image.length ≤ 3584 →
    ∃ s, load p image = .next s
      ∧ (∀ (j : Nat) (h : j < 80), readByte s (p.glyphBase.val + j) = p.glyphs[j])
      ∧ (∀ (k : Nat) (h : k < image.length), readByte s (0x200 + k) = image[k])
      ∧ (∀ a, (a < p.glyphBase.val ∨ p.glyphBase.val + 80 ≤ a) → (a < 0x200 ∨ 0x200 + image.length ≤ a) →
          readByte s a = 0)
      ∧ s.extHi = 0x200 + image.length ∧ s.pc = 0x200 ∧ s.sp = 0 ∧ s.kw = .idle ∧ s.params = p
      ∧ (∀ r, readV s r = 0) ∧ s.index = 0 ∧ (∀ j : Fin 16, s.stack[j] = 0) ∧ (∀ y x, pixelAt s.fb y x = false)
      ∧ s.dt = 0 ∧ s.st = 0 ∧ (∀ k, keyDown s k = false)

/-- The state after reset is the machine loaded with an empty image and the default parameters, and its first Step is
Halted (70_reset_and_hazards.md R234, an inference of the spec; the default parameters are log 6). -/
def Obligations.ResetIsTheEmptyMachineAndHalts : Prop :=
  load defaultParams [] = .next State.reset ∧ step State.reset = .fault .halted
    ∧ State.reset.pc = 0x200 ∧ State.reset.sp = 0 ∧ State.reset.kw = .idle ∧ State.reset.extHi = 0x200

/-- FX29 then points at the five bytes of the digit's glyph, in a machine just loaded, for a digit 0 to 15 in VX
(43_index_memory.md R152, 20_memory.md R51; decisions D6, D7, D11, logs 6, 8, 12). -/
def Obligations.FontAddressPointsAtTheGlyph : Prop :=
  ∀ (p : Params) (image : List Byte) (s : State) (v : Vector Byte 16) (x : Reg), load p image = .next s →
    (v[x]).toNat < 16 →
    ∃ t, exec (.ldF x) { s with v := v } = .next t
      ∧ ∀ (j : Nat) (_ : j < 5) (h : (v[x]).toNat * 5 + j < 80),
          readByte t (t.index.toNat + j) = p.glyphs[(v[x]).toNat * 5 + j]

/-! ### Invariants (10_state.md R41, an inference of the spec) -/

/-- The invariant holds at reset (R41 is an inference of the spec; the canonical form of memory is the model's
representation, log 8). -/
def Obligations.ResetMeetsTheInvariant : Prop := Inv State.reset

/-- The invariant holds of every machine just loaded (R230; R41 is an inference of the spec; the canonical form of memory is
the model's representation, log 8). -/
def Obligations.LoadedMachinesMeetTheInvariant : Prop :=
  ∀ (p : Params) (image : List Byte) (s : State), load p image = .next s → Inv s

/-- R41 (b), (d), (e), (f), an inference of the spec, and the canonical form of memory, the model's representation (log 8):
every step, whatever event it is, keeps the invariant. -/
def Obligations.EveryStepKeepsTheInvariant : Prop :=
  ∀ s t : State, Inv s → step s = .next t → Inv t

/-- Every state that any sequence of events reaches from any loaded machine meets the invariant (R41 is an inference of the
spec; the canonical form of memory is the model's representation, log 8). -/
def Obligations.EveryReachableStateMeetsTheInvariant : Prop :=
  ∀ (p : Params) (image : List Byte) (s : State) (es : List Event), load p image = .next s → Inv (afterEvents s es)

/-- While KW is not Idle every Step fetches the same FX0A and answers Continue, and PC stays until the Step that sees
the release (45_keypad.md R185 (c), (f), 10_state.md R41 (e): inferences of the spec). -/
def Obligations.WaitingMachineOnlyPolls : Prop :=
  ∀ (s : State) (r : Byte), Inv s → s.kw ≠ .idle →
    ∃ x t, decode (fetchWord s) = .ok (.ldVxK x) ∧ perform (.step r) s = .next t
      ∧ ((t.kw ≠ .idle ∧ t.pc = s.pc) ∨ (t.kw = .idle ∧ t.pc = s.pc + 2))

/-- Two memories in canonical form that read the same everywhere are the same list of cells (log 8). -/
def Obligations.EqualReadsMakeEqualMemories : Prop :=
  ∀ (p : Params) (m q : Memory), Memory.wf p m → Memory.wf p q →
    (∀ a, Memory.read p m a = Memory.read p q a) → m = q

/-! ### Whole-machine rules over all instructions -/

/-- The frame of every instruction: 10_state.md R20's column "written by", R23's flag writers, and for FX33 and FX55 the
bytes they store to; every other register, flag, timer, slot, pixel, key and byte of memory reads as before. That CALL writes
the slot at SP and no other, and RET none, is R29 and 41_control_flow.md R112 (decision D13, log 14). -/
def Obligations.EachInstructionChangesOnlyWhatItMayWrite : Prop :=
  ∀ (i : Instr) (s t : State), exec i s = .next t → ChangesOnly (mayWrite s i) s t

/-- R25: how every instruction that completes leaves PC, and that a Step that does not complete leaves it alone (R205,
decision D21, log 21). The key EX9E and EXA1 test is VX mod 16 (45_keypad.md R186, decision D10, log 11), and the address 00EE
pops is STACK[SP - 1] (R29, decision D13, log 14). -/
def Obligations.PcAfterEveryInstruction : Prop :=
  (∀ (i : Instr) (s t : State), exec i s = .next t → pcAfter s t i)
  ∧ ∀ (s : State) (r : Byte) (e : Fault), perform (.step r) s = .fault e → (afterEvent s (.step r)).pc = s.pc

/-- R23: the six flag writers leave 0 or 1 in VF, and every other instruction leaves VF alone unless it is the
destination. With X = 15 the flag is written last (decision D4, log 4). -/
def Obligations.OnlySixInstructionsWriteTheFlag : Prop :=
  ∀ (i : Instr) (s t : State), exec i s = .next t →
    (writesFlag i = true → readV t .vf = 0 ∨ readV t .vf = 1)
    ∧ (writesFlag i = false → ¬ writesReg i .vf → readV t .vf = readV s .vf)

/-- Each instruction ends without Continue under exactly the conditions 60_exceptions.md R201, R203 and R207 list, with the
error they name, and none is refused (decision D5 for memory errors, log 5). -/
def Obligations.InstructionsEndExactlyAsListed : Prop :=
  ∀ (i : Instr) (s : State), (∀ e, exec i s = .fault e ↔ endsWith s e i) ∧ ∀ q, exec i s ≠ .refused q

/-- A program that keeps what 70_reset_and_hazards.md R236 (b) to (d) asks meets no error at its next Step (R236 is an
inference of the spec; the memory and fetch errors are decisions D5 and D15, logs 5, 16). -/
def Obligations.ProgramsThatKeepTheHazardRulesAreSafe : Prop :=
  ∀ s : State, MeetsR236 s → SafeStep s

/-- ST is read by no instruction: changing it changes no outcome and nothing else of the next state (10_state.md R31,
44_random_timers.md R173). -/
def Obligations.SoundTimerReachesNothing : Prop :=
  ∀ (i : Instr) (s : State) (a : Byte),
    (∀ t, exec i s = .next t → ∃ b, exec i { s with st := a } = .next { t with st := b })
    ∧ (∀ e, exec i s = .fault e → exec i { s with st := a } = .fault e)

/-- The random byte is read by CXNN and by no other instruction (00_scope.md R15, decision D18; log 19). -/
def Obligations.RandomByteReachesOnlyCXNN : Prop :=
  ∀ (i : Instr) (s : State) (q : Byte), (∀ x nn, i ≠ .rnd x nn) →
    (∀ t, exec i s = .next t → exec i { s with rnd := q } = .next { t with rnd := q })
    ∧ (∀ e, exec i s = .fault e → exec i { s with rnd := q } = .fault e)

/-! ### Display -/

/-- R100: every pixel is 0 afterwards, PC advances, nothing else changes. -/
def Obligations.ClsClearsEveryPixel : Prop :=
  ∀ s : State, ∃ t, exec .cls s = .next t ∧ (∀ y x, pixelAt t.fb y x = false) ∧ t = { s with fb := t.fb, pc := s.pc + 2 }

/-- R101 to R104: each pixel the sprite covers flips, no other changes, VF tells whether a covered pixel was set, and
nothing else changes. Bit order and the range check are decisions D9 and D5 (logs 10, 5), the wrap of both the start and
every pixel is R102, and that no pixel is met twice is the inference R104. -/
def Obligations.DrwFlipsExactlyTheCoveredPixels : Prop :=
  ∀ (s : State) (x y : Reg) (n : Nat), (Instr.drw x y n).WellFormed → n = 0 ∨ s.index.toNat + n - 1 ≤ 4095 →
    ∃ t, exec (.drw x y n) s = .next t
      ∧ (∀ py px, pixelAt t.fb py px = (pixelAt s.fb py px ^^ spriteCovers s x y n py px))
      ∧ ((∃ py px, spriteCovers s x y n py px = true ∧ pixelAt s.fb py px = true) → readV t .vf = 1)
      ∧ ((∀ py px, spriteCovers s x y n py px = true → pixelAt s.fb py px = false) → readV t .vf = 0)
      ∧ (∀ r, r ≠ .vf → readV t r = readV s r)
      ∧ t = { s with v := t.v, fb := t.fb, pc := s.pc + 2 }

/-- R105 (h), an inference of the spec: drawing the identical sprite at the identical coordinates twice restores the
bitmap, and the second draw reports VF = 1 exactly if the first one set a pixel. -/
def Obligations.DrawingTwiceRestoresTheBitmap : Prop :=
  ∀ (s t u : State) (x y : Reg) (n : Nat), (Instr.drw x y n).WellFormed →
    exec (.drw x y n) s = .next t → readV t x = readV s x → readV t y = readV s y →
    exec (.drw x y n) t = .next u →
    u.fb = s.fb ∧ (readV u .vf = 1 ↔ ∃ py px, pixelAt t.fb py px = true ∧ pixelAt s.fb py px = false)

/-! ### Control transfer -/

/-- R111 and R113: PC is NNN, and NNN + V0 without reduction; nothing else changes. -/
def Obligations.JumpsSetPcToTheirTarget : Prop :=
  ∀ (s : State) (nnn : BitVec 12),
    (∃ t, exec (.jp nnn) s = .next t ∧ t.pc.toNat = nnn.toNat ∧ t = { s with pc := t.pc })
    ∧ (∃ t, exec (.jpV0 nnn) s = .next t ∧ t.pc.toNat = nnn.toNat + (readV s 0).toNat ∧ t = { s with pc := t.pc })

/-- R112: StackOverflow when SP = 16; otherwise STACK[SP] <- PC + 2, SP + 1, PC <- NNN and nothing else. -/
def Obligations.CallPushesTheReturnAddress : Prop :=
  ∀ (s : State) (nnn : BitVec 12),
    (s.sp.val = 16 → exec (.call nnn) s = .fault .stackOverflow)
    ∧ (s.sp.val < 16 → ∃ t, exec (.call nnn) s = .next t
        ∧ (∀ j : Fin 16, t.stack[j] = if j.val = s.sp.val then s.pc + 2 else s.stack[j])
        ∧ t.sp.val = s.sp.val + 1 ∧ t.pc.toNat = nnn.toNat
        ∧ t = { s with stack := t.stack, sp := t.sp, pc := t.pc })

/-- R110: StackUnderflow when SP = 0; otherwise SP - 1, PC <- STACK[SP], the slot keeping its value, and nothing else. -/
def Obligations.RetPopsTheReturnAddress : Prop :=
  ∀ s : State,
    (s.sp.val = 0 → exec .ret s = .fault .stackUnderflow)
    ∧ (∀ j : Fin 16, s.sp.val = j.val + 1 → ∃ t, exec .ret s = .next t
        ∧ t.sp.val = j.val ∧ t.pc = s.stack[j] ∧ t = { s with sp := t.sp, pc := t.pc })

/-- The source's property quoted in R112: a call and then a return restore PC to the call's address plus 2, and SP. -/
def Obligations.CallThenRetRoundTrip : Prop :=
  ∀ (s : State) (nnn : BitVec 12), s.sp.val < 16 →
    ∃ t u, exec (.call nnn) s = .next t ∧ exec .ret t = .next u ∧ u.pc = s.pc + 2 ∧ u.sp = s.sp

/-- The source's property quoted in R112: from an empty stack sixteen calls succeed and the seventeenth overflows. -/
def Obligations.SixteenCallsFitAndTheNextOverflows : Prop :=
  ∀ (s : State) (targets : List (BitVec 12)), s.sp.val = 0 →
    (targets.length ≤ 16 → ∃ t, callInTurn targets s = .next t ∧ t.sp.val = targets.length)
    ∧ (targets.length = 17 → callInTurn targets s = .fault .stackOverflow)

/-- R114 to R117: PC + 4 if the condition on the registers holds, else PC + 2; nothing else changes. -/
def Obligations.RegisterSkipsMoveOnlyPc : Prop :=
  ∀ (s : State) (x y : Reg) (nn : Byte),
    exec (.seImm x nn) s = .next { s with pc := if readV s x = nn then s.pc + 4 else s.pc + 2 }
    ∧ exec (.sneImm x nn) s = .next { s with pc := if readV s x = nn then s.pc + 2 else s.pc + 4 }
    ∧ exec (.seReg x y) s = .next { s with pc := if readV s x = readV s y then s.pc + 4 else s.pc + 2 }
    ∧ exec (.sneReg x y) s = .next { s with pc := if readV s x = readV s y then s.pc + 2 else s.pc + 4 }

/-- R180, R181 with the key index VX mod 16 of R186 (decision D10, log 11): the level of that key decides; nothing but PC
changes. -/
def Obligations.KeySkipsTestKeyModuloSixteen : Prop :=
  ∀ (s : State) (x : Reg) (k : Key), (readV s x).toNat % 16 = k.val →
    exec (.skp x) s = .next { s with pc := if keyDown s k then s.pc + 4 else s.pc + 2 }
    ∧ exec (.sknp x) s = .next { s with pc := if keyDown s k then s.pc + 2 else s.pc + 4 }

/-! ### Register load and ALU -/

/-- R130, R132 to R135: the destination gets the value the rule names, and only it and PC change (VF too is unchanged
unless it is the destination). -/
def Obligations.LoadsAndLogicWriteTheirDestination : Prop :=
  ∀ (s : State) (x y : Reg) (nn : Byte),
    exec (.ldImm x nn) s = .next { s with v := s.v.set x nn, pc := s.pc + 2 }
    ∧ exec (.mov x y) s = .next { s with v := s.v.set x s.v[y], pc := s.pc + 2 }
    ∧ exec (.or x y) s = .next { s with v := s.v.set x (s.v[x] ||| s.v[y]), pc := s.pc + 2 }
    ∧ exec (.and x y) s = .next { s with v := s.v.set x (s.v[x] &&& s.v[y]), pc := s.pc + 2 }
    ∧ exec (.xor x y) s = .next { s with v := s.v.set x (s.v[x] ^^^ s.v[y]), pc := s.pc + 2 }

/-- R131: VX <- (VX + NN) mod 256, no other register (VF included) changes. -/
def Obligations.AddImmWrapsAndLeavesTheFlag : Prop :=
  ∀ (s : State) (x : Reg) (nn : Byte),
    ∃ t, exec (.addImm x nn) s = .next t ∧ (readV t x).toNat = ((readV s x).toNat + nn.toNat) % 256
      ∧ (∀ r, r ≠ x → readV t r = readV s r) ∧ t.pc = s.pc + 2 ∧ OnlyVAndPc s t

/-- R136, R137, R139: sum and differences modulo 256 in VX, carry or no-borrow in VF on the untruncated operands, VF written
last (so with X = 15 VF holds the flag: R143, decision D4, log 4), and nothing else. -/
def Obligations.AddAndSubtractWithFlag : Prop :=
  ∀ (s : State) (x y : Reg),
    let a := (readV s x).toNat
    let b := (readV s y).toNat
    (∃ t, exec (.addReg x y) s = .next t ∧ (x ≠ .vf → (readV t x).toNat = (a + b) % 256)
      ∧ readV t .vf = (if a + b > 255 then 1 else 0)
      ∧ (∀ r, r ≠ x → r ≠ .vf → readV t r = readV s r) ∧ t.pc = s.pc + 2 ∧ OnlyVAndPc s t)
    ∧ (∃ t, exec (.sub x y) s = .next t ∧ (x ≠ .vf → (readV t x).toNat = (a + 256 - b) % 256)
      ∧ readV t .vf = (if a < b then 0 else 1)
      ∧ (∀ r, r ≠ x → r ≠ .vf → readV t r = readV s r) ∧ t.pc = s.pc + 2 ∧ OnlyVAndPc s t)
    ∧ (∃ t, exec (.subn x y) s = .next t ∧ (x ≠ .vf → (readV t x).toNat = (b + 256 - a) % 256)
      ∧ readV t .vf = (if b < a then 0 else 1)
      ∧ (∀ r, r ≠ x → r ≠ .vf → readV t r = readV s r) ∧ t.pc = s.pc + 2 ∧ OnlyVAndPc s t)

/-- R138 and R140: VY, not VX, is shifted by one, the bit shifted out goes to VF last (R143, decision D4, log 4), and nothing
else changes. -/
def Obligations.ShiftsMoveVyByOneBit : Prop :=
  ∀ (s : State) (x y : Reg),
    let b := (readV s y).toNat
    (∃ t, exec (.shr x y) s = .next t ∧ (x ≠ .vf → (readV t x).toNat = b / 2)
      ∧ (readV t .vf).toNat = b % 2
      ∧ (∀ r, r ≠ x → r ≠ .vf → readV t r = readV s r) ∧ t.pc = s.pc + 2 ∧ OnlyVAndPc s t)
    ∧ (∃ t, exec (.shl x y) s = .next t ∧ (x ≠ .vf → (readV t x).toNat = b * 2 % 256)
      ∧ (readV t .vf).toNat = b / 128
      ∧ (∀ r, r ≠ x → r ≠ .vf → readV t r = readV s r) ∧ t.pc = s.pc + 2 ∧ OnlyVAndPc s t)

/-! ### Index and memory -/

/-- R150: I <- NNN zero-extended; only I and PC change. -/
def Obligations.LdISetsTheIndex : Prop :=
  ∀ (s : State) (nnn : BitVec 12),
    ∃ t, exec (.ldI nnn) s = .next t ∧ t.index.toNat = nnn.toNat ∧ t = { s with index := t.index, pc := s.pc + 2 }

/-- R151 and R152: I + VX modulo 65536 (decision D12, log 13), and GLYPH_BASE + VX * 5 with the full VX (decision D11, log
12); only I and PC change. -/
def Obligations.AddIAndLdFFormTheIndex : Prop :=
  ∀ (s : State) (x : Reg),
    (∃ t, exec (.addI x) s = .next t ∧ t.index.toNat = (s.index.toNat + (readV s x).toNat) % 65536
      ∧ t = { s with index := t.index, pc := s.pc + 2 })
    ∧ (∃ t, exec (.ldF x) s = .next t ∧ t.index.toNat = s.params.glyphBase.val + (readV s x).toNat * 5
      ∧ t = { s with index := t.index, pc := s.pc + 2 })

/-- R153: hundreds, tens and units at I, I + 1, I + 2, every other byte and everything else but PC as before; the range
error is decision D5 (log 5). -/
def Obligations.BcdStoresTheThreeDigits : Prop :=
  ∀ (s : State) (x : Reg), MemoryOk s →
    (4095 < s.index.toNat + 2 → exec (.bcd x) s = .fault (.memoryAccessOutOfBounds (max s.index.toNat 4096)))
    ∧ (s.index.toNat + 2 ≤ 4095 → ∃ t, exec (.bcd x) s = .next t
        ∧ (readByte t (baseAddress s)).toNat = (readV s x).toNat / 100
        ∧ (readByte t (baseAddress s + 1)).toNat = (readV s x).toNat / 10 % 10
        ∧ (readByte t (baseAddress s + 2)).toNat = (readV s x).toNat % 10
        ∧ (∀ a, a < baseAddress s ∨ baseAddress s + 2 < a → readByte t a = readByte s a)
        ∧ t = { s with mem := t.mem, pc := s.pc + 2 })

/-- R154: V0 to VX at I to I + X, every other byte as before, I <- I + X + 1; the range error is decision D5 (log 5). -/
def Obligations.StoreRegsStoresV0ToVx : Prop :=
  ∀ (s : State) (x : Reg), MemoryOk s →
    (4095 < s.index.toNat + x.val → exec (.storeRegs x) s = .fault (.memoryAccessOutOfBounds (max s.index.toNat 4096)))
    ∧ (s.index.toNat + x.val ≤ 4095 → ∃ t, exec (.storeRegs x) s = .next t
        ∧ (∀ r : Reg, r ≤ x → readByte t (baseAddress s + r.val) = readV s r)
        ∧ (∀ a, a < baseAddress s ∨ baseAddress s + x.val < a → readByte t a = readByte s a)
        ∧ t.index.toNat = s.index.toNat + x.val + 1
        ∧ t = { s with mem := t.mem, index := t.index, pc := s.pc + 2 })

/-- R155: V0 to VX from I to I + X, every other register as before, I <- I + X + 1, memory unchanged; the range error is
decision D5 (log 5). -/
def Obligations.LoadRegsLoadsV0ToVx : Prop :=
  ∀ (s : State) (x : Reg),
    (4095 < s.index.toNat + x.val → exec (.loadRegs x) s = .fault (.memoryAccessOutOfBounds (max s.index.toNat 4096)))
    ∧ (s.index.toNat + x.val ≤ 4095 → ∃ t, exec (.loadRegs x) s = .next t
        ∧ (∀ r : Reg, readV t r = if r ≤ x then readByte s (baseAddress s + r.val) else readV s r)
        ∧ t.index.toNat = s.index.toNat + x.val + 1
        ∧ t = { s with v := t.v, index := t.index, pc := s.pc + 2 })

/-- FX55 and then, with I back where it was and V anything, FX65 of the same X brings the registers back (R154, R155). -/
def Obligations.StoredRegistersLoadBack : Prop :=
  ∀ (s : State) (x : Reg) (v : Vector Byte 16), MemoryOk s → s.index.toNat + x.val ≤ 4095 →
    ∃ t u, exec (.storeRegs x) s = .next t ∧ exec (.loadRegs x) { t with index := s.index, v := v } = .next u
      ∧ (∀ r : Reg, r ≤ x → readV u r = readV s r) ∧ u.index = t.index

/-- Bytes stored by FX55 are what a later fetch at their address executes, V0 the high byte (20_memory.md R53, R64:
inferences of the spec; the byte order is decision D1, log 1). -/
def Obligations.StoredBytesAreFetched : Prop :=
  ∀ (s t : State) (x : Reg), MemoryOk s → 1 ≤ x.val → exec (.storeRegs x) s = .next t →
    (fetchWord { t with pc := s.index }).toNat = (readV s 0).toNat * 256 + (readV s 1).toNat

/-! ### Random, timers, keys -/

/-- R170: VX <- rnd & NN for every value of the random byte (a free value, decision D18, log 19); every bit that is 0 in NN
is 0 in the result, and only VX and PC change. -/
def Obligations.RndMasksTheRandomByte : Prop :=
  ∀ (s : State) (x : Reg) (nn : Byte),
    ∃ t, exec (.rnd x nn) s = .next t ∧ readV t x = s.rnd &&& nn
      ∧ (∀ j, nn.getLsbD j = false → (readV t x).getLsbD j = false)
      ∧ (∀ r, r ≠ x → readV t r = readV s r) ∧ t.pc = s.pc + 2 ∧ OnlyVAndPc s t

/-- R171 to R173: VX <- DT, DT <- VX, ST <- VX, and nothing else but PC. -/
def Obligations.TimerInstructionsMoveTheTimers : Prop :=
  ∀ (s : State) (x : Reg),
    exec (.ldVxDt x) s = .next { s with v := s.v.set x s.dt, pc := s.pc + 2 }
    ∧ exec (.ldDtVx x) s = .next { s with dt := s.v[x], pc := s.pc + 2 }
    ∧ exec (.ldStVx x) s = .next { s with st := s.v[x], pc := s.pc + 2 }

/-- R182 to R184: from Idle or AwaitingPress the lowest pressed key goes to VX and is latched, and with no key down KW is
AwaitingPress, PC staying; from AwaitingRelease(k) only key k counts, and its release ends the wait and advances PC. -/
def Obligations.KeyWaitPollsAsItsStateMachine : Prop :=
  ∀ (s : State) (x : Reg),
    (s.kw = .idle ∨ s.kw = .awaitingPress →
      (∀ k, keyDown s k = true → (∀ j, j < k → keyDown s j = false) →
        exec (.ldVxK x) s = .next { s with v := s.v.set x (BitVec.ofNat 8 k.val), kw := .awaitingRelease k })
      ∧ ((∀ k, keyDown s k = false) → exec (.ldVxK x) s = .next { s with kw := .awaitingPress }))
    ∧ ∀ k, s.kw = .awaitingRelease k →
      (keyDown s k = false → exec (.ldVxK x) s = .next { s with kw := .idle, pc := s.pc + 2 })
      ∧ (keyDown s k = true → exec (.ldVxK x) s = .next s)

/-! ### Halt and Unknown -/

/-- R190: HALT answers Halted from every state, and the Step that executes it leaves the whole state as it was. -/
def Obligations.HaltReturnsHaltedAndChangesNothing : Prop :=
  ∀ s : State, exec .halt s = .fault .halted
    ∧ ∀ r, inExtent s = true → s.pc.toNat ≤ 4094 → fetchWord s = 0xFFFF →
        perform (.step r) s = .fault .halted ∧ afterEvent s (.step r) = s

/-- R191: a Step that fetches an Unknown word answers UnimplementedOpcode(word) and leaves the whole state as it was. -/
def Obligations.UnknownWordsFailAndChangeNothing : Prop :=
  ∀ (s : State) (r : Byte) (w : Word), inExtent s = true → s.pc.toNat ≤ 4094 → fetchWord s = w →
    (∀ i, decode w ≠ .ok i) → perform (.step r) s = .fault (.unimplementedOpcode w) ∧ afterEvent s (.step r) = s
end

