-- ==== Sys2Proof/Laws/Memory.lean ====
section
/-! SUPPORT. The laws of memory: a read after a write, and that every operation keeps the canonical form. -/

namespace Sys2Proof.Machine

variable (p : Params)

@[simp] theorem Memory.lookup_nil (a : Nat) : Memory.lookup [] a = none := rfl

/-- Every address of the cells lies above `a`. -/
abbrev Memory.above (a : Nat) (m : Memory) : Prop := ∀ c ∈ m, a < c.1

theorem Memory.lookup_above {m : Memory} {a b : Nat} (h : Memory.above a m) (hb : b ≤ a) : Memory.lookup m b = none := by
  induction m with
  | nil => rfl
  | cons c m ih =>
    obtain ⟨k, x⟩ := c
    have hk : a < k := h (k, x) (by simp)
    have : k ≠ b := by omega
    simp only [Memory.lookup, if_neg this]
    exact ih (fun c hc => h c (by simp [hc]))

theorem Memory.lookup_put (m : Memory) (a b : Nat) (x : Byte) :
    Memory.lookup (Memory.put m a x) b = if b = a then some x else Memory.lookup m b := by
  induction m with
  | nil =>
    by_cases h : b = a
    · simp [Memory.put, Memory.lookup, h]
    · simp [Memory.put, Memory.lookup, h, Ne.symm h]
  | cons c m ih =>
    obtain ⟨k, y⟩ := c
    unfold Memory.put
    split
    · by_cases h : b = a
      · simp [Memory.lookup, h]
      · simp [Memory.lookup, h, Ne.symm h]
    · split
      · rename_i _ hk
        subst hk
        by_cases h : b = a
        · simp [Memory.lookup, h]
        · simp [Memory.lookup, h, Ne.symm h]
      · by_cases h : k = b
        · have : b ≠ a := by omega
          simp [Memory.lookup, h, this]
        · simp [Memory.lookup, h, ih]

theorem Memory.lookup_remove {m : Memory} (hm : m.Pairwise (fun c d => c.1 < d.1)) (a b : Nat) :
    Memory.lookup (Memory.remove m a) b = if b = a then none else Memory.lookup m b := by
  induction m with
  | nil => simp [Memory.remove]
  | cons c m ih =>
    obtain ⟨k, y⟩ := c
    obtain ⟨hk, hm'⟩ := List.pairwise_cons.1 hm
    unfold Memory.remove
    split
    · rename_i h
      subst h
      by_cases hb : b = k
      · subst hb; simp only [if_true]; exact Memory.lookup_above hk (Nat.le_refl _)
      · simp [Memory.lookup, hb, Ne.symm hb]
    · rename_i h
      by_cases hb : k = b
      · subst hb; simp [Memory.lookup, h]
      · simp [Memory.lookup, hb, ih hm']

/-- A read after a write: the written byte at its address, the old byte everywhere else (20_memory.md R62). -/
theorem Memory.read_write {m : Memory} (hm : m.Pairwise (fun c d => c.1 < d.1)) (a b : Nat) (x : Byte) :
    Memory.read p (Memory.write p m a x) b = if b = a then x else Memory.read p m b := by
  unfold Memory.read Memory.write
  split
  · rename_i hx
    rw [Memory.lookup_remove hm]
    by_cases h : b = a
    · simp [h, hx]
    · simp [h]
  · rw [Memory.lookup_put]
    by_cases h : b = a <;> simp [h]

/-! ### The canonical form -/

theorem Memory.mem_put {m : Memory} {a : Nat} {x : Byte} {c : Host.Cell} (h : c ∈ Memory.put m a x) :
    c = (a, x) ∨ c ∈ m := by
  induction m with
  | nil => simpa [Memory.put] using h
  | cons d m ih =>
    obtain ⟨k, y⟩ := d
    unfold Memory.put at h
    split at h
    · simpa using h
    · split at h
      · rcases List.mem_cons.1 h with h | h
        · exact .inl h
        · exact .inr (List.mem_cons_of_mem _ h)
      · rcases List.mem_cons.1 h with h | h
        · exact .inr (by simp [h])
        · rcases ih h with h | h
          · exact .inl h
          · exact .inr (List.mem_cons_of_mem _ h)

theorem Memory.mem_remove {m : Memory} {a : Nat} {c : Host.Cell} (h : c ∈ Memory.remove m a) : c ∈ m := by
  induction m with
  | nil => simp [Memory.remove] at h
  | cons d m ih =>
    obtain ⟨k, y⟩ := d
    unfold Memory.remove at h
    split at h
    · exact List.mem_cons_of_mem _ h
    · rcases List.mem_cons.1 h with h | h
      · simp [h]
      · exact List.mem_cons_of_mem _ (ih h)

theorem Memory.put_sorted {m : Memory} (hm : m.Pairwise (fun c d => c.1 < d.1)) (a : Nat) (x : Byte) :
    (Memory.put m a x).Pairwise (fun c d => c.1 < d.1) := by
  induction m with
  | nil => simp [Memory.put]
  | cons d m ih =>
    obtain ⟨k, y⟩ := d
    obtain ⟨hk, hm'⟩ := List.pairwise_cons.1 hm
    unfold Memory.put
    split
    · rename_i h
      refine List.pairwise_cons.2 ⟨fun c hc => ?_, hm⟩
      rcases List.mem_cons.1 hc with hc | hc
      · simpa [hc] using h
      · exact Nat.lt_trans h (hk c hc)
    · split
      · rename_i h
        subst h
        exact List.pairwise_cons.2 ⟨hk, hm'⟩
      · refine List.pairwise_cons.2 ⟨fun c hc => ?_, ih hm'⟩
        rcases Memory.mem_put hc with hc | hc
        · simp only [hc]; omega
        · exact hk c hc

theorem Memory.remove_sorted {m : Memory} (hm : m.Pairwise (fun c d => c.1 < d.1)) (a : Nat) :
    (Memory.remove m a).Pairwise (fun c d => c.1 < d.1) := by
  induction m with
  | nil => simp [Memory.remove]
  | cons d m ih =>
    obtain ⟨k, y⟩ := d
    obtain ⟨hk, hm'⟩ := List.pairwise_cons.1 hm
    unfold Memory.remove
    split
    · exact hm'
    · exact List.pairwise_cons.2 ⟨fun c hc => hk c (Memory.mem_remove hc), ih hm'⟩

/-- A write inside [0, 4096) keeps the canonical form. -/
theorem Memory.write_wf {m : Memory} (hm : Memory.wf p m) {a : Nat} (ha : a < Config.memSize) (x : Byte) :
    Memory.wf p (Memory.write p m a x) := by
  unfold Memory.write
  split
  · exact ⟨Memory.remove_sorted hm.1 a, fun c hc => hm.2 c (Memory.mem_remove hc)⟩
  · rename_i hx
    refine ⟨Memory.put_sorted hm.1 a x, fun c hc => ?_⟩
    rcases Memory.mem_put hc with hc | hc
    · subst hc; exact ⟨ha, hx⟩
    · exact hm.2 c hc

theorem Memory.ofBytes_mem {c : Host.Cell} {xs : List Byte} {a : Nat} (h : c ∈ Memory.ofBytes p a xs) :
    a ≤ c.1 ∧ c.1 < a + xs.length ∧ c.2 ≠ resetByte p c.1 := by
  induction xs generalizing a with
  | nil => simp [Memory.ofBytes] at h
  | cons x xs ih =>
    unfold Memory.ofBytes at h
    split at h
    · have := ih h; simp only [List.length_cons]; exact ⟨by omega, by omega, this.2.2⟩
    · rename_i hx
      rcases List.mem_cons.1 h with h | h
      · subst h; simp only [List.length_cons]; exact ⟨by omega, by omega, hx⟩
      · have := ih h; simp only [List.length_cons]; exact ⟨by omega, by omega, this.2.2⟩

/-- A loaded image that fits is in canonical form. -/
theorem Memory.ofBytes_wf {a : Nat} {xs : List Byte} (h : a + xs.length ≤ Config.memSize) :
    Memory.wf p (Memory.ofBytes p a xs) := by
  refine ⟨?_, fun c hc => ⟨by have := Memory.ofBytes_mem p hc; omega, (Memory.ofBytes_mem p hc).2.2⟩⟩
  clear h
  induction xs generalizing a with
  | nil => simp [Memory.ofBytes]
  | cons x xs ih =>
    unfold Memory.ofBytes
    split
    · exact ih
    · exact List.pairwise_cons.2 ⟨fun c hc => (Memory.ofBytes_mem p hc).1, ih⟩

/-- What a memory made of placed bytes reads: the byte placed there, the reset content elsewhere. -/
theorem Memory.read_ofBytes (a : Nat) (xs : List Byte) (b : Nat) :
    Memory.read p (Memory.ofBytes p a xs) b = if h : a ≤ b ∧ b - a < xs.length then xs[b - a] else resetByte p b := by
  induction xs generalizing a with
  | nil => simp [Memory.ofBytes, Memory.read]
  | cons x xs ih =>
    have hna : Memory.lookup (Memory.ofBytes p (a + 1) xs) a = none :=
      Memory.lookup_above (a := a) (fun c hc => by have := (Memory.ofBytes_mem p hc).1; omega) (Nat.le_refl _)
    unfold Memory.ofBytes
    by_cases hb : b = a
    · subst hb
      split
      · rename_i hx; simp [Memory.read, hna, hx]
      · simp [Memory.read, Memory.lookup]
    · have e : Memory.read p (if x = resetByte p a then Memory.ofBytes p (a + 1) xs
          else (a, x) :: Memory.ofBytes p (a + 1) xs) b = Memory.read p (Memory.ofBytes p (a + 1) xs) b := by
        split
        · rfl
        · simp [Memory.read, Memory.lookup, Ne.symm hb]
      rw [e, ih]
      by_cases h : a + 1 ≤ b ∧ b - (a + 1) < xs.length
      · rw [dif_pos h, dif_pos (by simp; omega)]
        have : b - a = (b - (a + 1)) + 1 := by omega
        simp [this]
      · rw [dif_neg h, dif_neg (by simp; omega)]

/-- Reset's memory is in canonical form. -/
theorem reset_memory_wf : Memory.wf State.reset.params State.reset.mem := by
  simp [Memory.wf, State.reset]

/-- A write leaves every other address alone, whatever the cells are. -/
theorem Memory.read_write_ne (m : Memory) {a b : Nat} (h : b ≠ a) (x : Byte) :
    Memory.read p (Memory.write p m a x) b = Memory.read p m b := by
  have hr : Memory.lookup (Memory.remove m a) b = Memory.lookup m b := by
    induction m with
    | nil => rfl
    | cons d m ih =>
      obtain ⟨k, y⟩ := d
      unfold Memory.remove
      split
      · rename_i hk; subst hk; simp [Memory.lookup, Ne.symm h]
      · by_cases hb : k = b <;> simp [Memory.lookup, hb, ih]
  unfold Memory.read Memory.write
  split
  · rw [hr]
  · rw [Memory.lookup_put]; simp [h]

theorem readByte_writeByte_ne (s : State) {a b : Nat} (h : b ≠ a) (x : Byte) :
    readByte (writeByte a x s) b = readByte s b := Memory.read_write_ne s.params s.mem h x

/-- A state's byte read after one was written. -/
theorem readByte_writeByte {s : State} (hm : Memory.wf s.params s.mem) (a b : Nat) (x : Byte) :
    readByte (writeByte a x s) b = if b = a then x else readByte s b :=
  Memory.read_write s.params hm.1 a b x

/-- A state's memory keeps its canonical form under a write in range. -/
theorem writeByte_wf {s : State} (hm : Memory.wf s.params s.mem) {a : Nat} (ha : a < Config.memSize) (x : Byte) :
    Memory.wf (writeByte a x s).params (writeByte a x s).mem :=
  Memory.write_wf s.params hm ha x

end Sys2Proof.Machine
end

