-- ==== Sys2Proof/Laws/State.lean ====
section
/-! SUPPORT. One lemma per field per update of the state, each true by unfolding, so that no later proof unfolds a record
update; and what the accessors read after an update. -/

namespace Sys2Proof.Machine

variable (s : State)

/-! ### writeV -/

@[simp] theorem writeV_v (r : Reg) (x : Byte) : (writeV r x s).v = s.v.set r x := rfl
@[simp] theorem writeV_index (r : Reg) (x : Byte) : (writeV r x s).index = s.index := rfl
@[simp] theorem writeV_pc (r : Reg) (x : Byte) : (writeV r x s).pc = s.pc := rfl
@[simp] theorem writeV_sp (r : Reg) (x : Byte) : (writeV r x s).sp = s.sp := rfl
@[simp] theorem writeV_stack (r : Reg) (x : Byte) : (writeV r x s).stack = s.stack := rfl
@[simp] theorem writeV_fb (r : Reg) (x : Byte) : (writeV r x s).fb = s.fb := rfl
@[simp] theorem writeV_dt (r : Reg) (x : Byte) : (writeV r x s).dt = s.dt := rfl
@[simp] theorem writeV_st (r : Reg) (x : Byte) : (writeV r x s).st = s.st := rfl
@[simp] theorem writeV_key (r : Reg) (x : Byte) : (writeV r x s).key = s.key := rfl
@[simp] theorem writeV_kw (r : Reg) (x : Byte) : (writeV r x s).kw = s.kw := rfl
@[simp] theorem writeV_mem (r : Reg) (x : Byte) : (writeV r x s).mem = s.mem := rfl
@[simp] theorem writeV_extHi (r : Reg) (x : Byte) : (writeV r x s).extHi = s.extHi := rfl
@[simp] theorem writeV_params (r : Reg) (x : Byte) : (writeV r x s).params = s.params := rfl
@[simp] theorem writeV_rnd (r : Reg) (x : Byte) : (writeV r x s).rnd = s.rnd := rfl
@[simp] theorem writeV_pending (r : Reg) (x : Byte) : (writeV r x s).pending = s.pending := rfl
@[simp] theorem writeV_rndDraws (r : Reg) (x : Byte) : (writeV r x s).rndDraws = s.rndDraws := rfl

/-! ### setPc -/

@[simp] theorem setPc_v (x : Word) : (setPc x s).v = s.v := rfl
@[simp] theorem setPc_index (x : Word) : (setPc x s).index = s.index := rfl
@[simp] theorem setPc_pc (x : Word) : (setPc x s).pc = x := rfl
@[simp] theorem setPc_sp (x : Word) : (setPc x s).sp = s.sp := rfl
@[simp] theorem setPc_stack (x : Word) : (setPc x s).stack = s.stack := rfl
@[simp] theorem setPc_fb (x : Word) : (setPc x s).fb = s.fb := rfl
@[simp] theorem setPc_dt (x : Word) : (setPc x s).dt = s.dt := rfl
@[simp] theorem setPc_st (x : Word) : (setPc x s).st = s.st := rfl
@[simp] theorem setPc_key (x : Word) : (setPc x s).key = s.key := rfl
@[simp] theorem setPc_kw (x : Word) : (setPc x s).kw = s.kw := rfl
@[simp] theorem setPc_mem (x : Word) : (setPc x s).mem = s.mem := rfl
@[simp] theorem setPc_extHi (x : Word) : (setPc x s).extHi = s.extHi := rfl
@[simp] theorem setPc_params (x : Word) : (setPc x s).params = s.params := rfl
@[simp] theorem setPc_rnd (x : Word) : (setPc x s).rnd = s.rnd := rfl
@[simp] theorem setPc_pending (x : Word) : (setPc x s).pending = s.pending := rfl
@[simp] theorem setPc_rndDraws (x : Word) : (setPc x s).rndDraws = s.rndDraws := rfl

/-! ### setIndex -/

@[simp] theorem setIndex_v (x : Word) : (setIndex x s).v = s.v := rfl
@[simp] theorem setIndex_index (x : Word) : (setIndex x s).index = x := rfl
@[simp] theorem setIndex_pc (x : Word) : (setIndex x s).pc = s.pc := rfl
@[simp] theorem setIndex_sp (x : Word) : (setIndex x s).sp = s.sp := rfl
@[simp] theorem setIndex_stack (x : Word) : (setIndex x s).stack = s.stack := rfl
@[simp] theorem setIndex_fb (x : Word) : (setIndex x s).fb = s.fb := rfl
@[simp] theorem setIndex_dt (x : Word) : (setIndex x s).dt = s.dt := rfl
@[simp] theorem setIndex_st (x : Word) : (setIndex x s).st = s.st := rfl
@[simp] theorem setIndex_key (x : Word) : (setIndex x s).key = s.key := rfl
@[simp] theorem setIndex_kw (x : Word) : (setIndex x s).kw = s.kw := rfl
@[simp] theorem setIndex_mem (x : Word) : (setIndex x s).mem = s.mem := rfl
@[simp] theorem setIndex_extHi (x : Word) : (setIndex x s).extHi = s.extHi := rfl
@[simp] theorem setIndex_params (x : Word) : (setIndex x s).params = s.params := rfl
@[simp] theorem setIndex_rnd (x : Word) : (setIndex x s).rnd = s.rnd := rfl
@[simp] theorem setIndex_pending (x : Word) : (setIndex x s).pending = s.pending := rfl
@[simp] theorem setIndex_rndDraws (x : Word) : (setIndex x s).rndDraws = s.rndDraws := rfl

/-! ### setDt -/

@[simp] theorem setDt_v (x : Byte) : (setDt x s).v = s.v := rfl
@[simp] theorem setDt_index (x : Byte) : (setDt x s).index = s.index := rfl
@[simp] theorem setDt_pc (x : Byte) : (setDt x s).pc = s.pc := rfl
@[simp] theorem setDt_sp (x : Byte) : (setDt x s).sp = s.sp := rfl
@[simp] theorem setDt_stack (x : Byte) : (setDt x s).stack = s.stack := rfl
@[simp] theorem setDt_fb (x : Byte) : (setDt x s).fb = s.fb := rfl
@[simp] theorem setDt_dt (x : Byte) : (setDt x s).dt = x := rfl
@[simp] theorem setDt_st (x : Byte) : (setDt x s).st = s.st := rfl
@[simp] theorem setDt_key (x : Byte) : (setDt x s).key = s.key := rfl
@[simp] theorem setDt_kw (x : Byte) : (setDt x s).kw = s.kw := rfl
@[simp] theorem setDt_mem (x : Byte) : (setDt x s).mem = s.mem := rfl
@[simp] theorem setDt_extHi (x : Byte) : (setDt x s).extHi = s.extHi := rfl
@[simp] theorem setDt_params (x : Byte) : (setDt x s).params = s.params := rfl
@[simp] theorem setDt_rnd (x : Byte) : (setDt x s).rnd = s.rnd := rfl
@[simp] theorem setDt_pending (x : Byte) : (setDt x s).pending = s.pending := rfl
@[simp] theorem setDt_rndDraws (x : Byte) : (setDt x s).rndDraws = s.rndDraws := rfl

/-! ### setSt -/

@[simp] theorem setSt_v (x : Byte) : (setSt x s).v = s.v := rfl
@[simp] theorem setSt_index (x : Byte) : (setSt x s).index = s.index := rfl
@[simp] theorem setSt_pc (x : Byte) : (setSt x s).pc = s.pc := rfl
@[simp] theorem setSt_sp (x : Byte) : (setSt x s).sp = s.sp := rfl
@[simp] theorem setSt_stack (x : Byte) : (setSt x s).stack = s.stack := rfl
@[simp] theorem setSt_fb (x : Byte) : (setSt x s).fb = s.fb := rfl
@[simp] theorem setSt_dt (x : Byte) : (setSt x s).dt = s.dt := rfl
@[simp] theorem setSt_st (x : Byte) : (setSt x s).st = x := rfl
@[simp] theorem setSt_key (x : Byte) : (setSt x s).key = s.key := rfl
@[simp] theorem setSt_kw (x : Byte) : (setSt x s).kw = s.kw := rfl
@[simp] theorem setSt_mem (x : Byte) : (setSt x s).mem = s.mem := rfl
@[simp] theorem setSt_extHi (x : Byte) : (setSt x s).extHi = s.extHi := rfl
@[simp] theorem setSt_params (x : Byte) : (setSt x s).params = s.params := rfl
@[simp] theorem setSt_rnd (x : Byte) : (setSt x s).rnd = s.rnd := rfl
@[simp] theorem setSt_pending (x : Byte) : (setSt x s).pending = s.pending := rfl
@[simp] theorem setSt_rndDraws (x : Byte) : (setSt x s).rndDraws = s.rndDraws := rfl

/-! ### setKw -/

@[simp] theorem setKw_v (x : KeyWait) : (setKw x s).v = s.v := rfl
@[simp] theorem setKw_index (x : KeyWait) : (setKw x s).index = s.index := rfl
@[simp] theorem setKw_pc (x : KeyWait) : (setKw x s).pc = s.pc := rfl
@[simp] theorem setKw_sp (x : KeyWait) : (setKw x s).sp = s.sp := rfl
@[simp] theorem setKw_stack (x : KeyWait) : (setKw x s).stack = s.stack := rfl
@[simp] theorem setKw_fb (x : KeyWait) : (setKw x s).fb = s.fb := rfl
@[simp] theorem setKw_dt (x : KeyWait) : (setKw x s).dt = s.dt := rfl
@[simp] theorem setKw_st (x : KeyWait) : (setKw x s).st = s.st := rfl
@[simp] theorem setKw_key (x : KeyWait) : (setKw x s).key = s.key := rfl
@[simp] theorem setKw_kw (x : KeyWait) : (setKw x s).kw = x := rfl
@[simp] theorem setKw_mem (x : KeyWait) : (setKw x s).mem = s.mem := rfl
@[simp] theorem setKw_extHi (x : KeyWait) : (setKw x s).extHi = s.extHi := rfl
@[simp] theorem setKw_params (x : KeyWait) : (setKw x s).params = s.params := rfl
@[simp] theorem setKw_rnd (x : KeyWait) : (setKw x s).rnd = s.rnd := rfl
@[simp] theorem setKw_pending (x : KeyWait) : (setKw x s).pending = s.pending := rfl
@[simp] theorem setKw_rndDraws (x : KeyWait) : (setKw x s).rndDraws = s.rndDraws := rfl

/-! ### setFb -/

@[simp] theorem setFb_v (x : Vector (BitVec 64) 32) : (setFb x s).v = s.v := rfl
@[simp] theorem setFb_index (x : Vector (BitVec 64) 32) : (setFb x s).index = s.index := rfl
@[simp] theorem setFb_pc (x : Vector (BitVec 64) 32) : (setFb x s).pc = s.pc := rfl
@[simp] theorem setFb_sp (x : Vector (BitVec 64) 32) : (setFb x s).sp = s.sp := rfl
@[simp] theorem setFb_stack (x : Vector (BitVec 64) 32) : (setFb x s).stack = s.stack := rfl
@[simp] theorem setFb_fb (x : Vector (BitVec 64) 32) : (setFb x s).fb = x := rfl
@[simp] theorem setFb_dt (x : Vector (BitVec 64) 32) : (setFb x s).dt = s.dt := rfl
@[simp] theorem setFb_st (x : Vector (BitVec 64) 32) : (setFb x s).st = s.st := rfl
@[simp] theorem setFb_key (x : Vector (BitVec 64) 32) : (setFb x s).key = s.key := rfl
@[simp] theorem setFb_kw (x : Vector (BitVec 64) 32) : (setFb x s).kw = s.kw := rfl
@[simp] theorem setFb_mem (x : Vector (BitVec 64) 32) : (setFb x s).mem = s.mem := rfl
@[simp] theorem setFb_extHi (x : Vector (BitVec 64) 32) : (setFb x s).extHi = s.extHi := rfl
@[simp] theorem setFb_params (x : Vector (BitVec 64) 32) : (setFb x s).params = s.params := rfl
@[simp] theorem setFb_rnd (x : Vector (BitVec 64) 32) : (setFb x s).rnd = s.rnd := rfl
@[simp] theorem setFb_pending (x : Vector (BitVec 64) 32) : (setFb x s).pending = s.pending := rfl
@[simp] theorem setFb_rndDraws (x : Vector (BitVec 64) 32) : (setFb x s).rndDraws = s.rndDraws := rfl

/-! ### setKeyBit -/

@[simp] theorem setKeyBit_v (k : Key) (b : Bool) : (setKeyBit k b s).v = s.v := rfl
@[simp] theorem setKeyBit_index (k : Key) (b : Bool) : (setKeyBit k b s).index = s.index := rfl
@[simp] theorem setKeyBit_pc (k : Key) (b : Bool) : (setKeyBit k b s).pc = s.pc := rfl
@[simp] theorem setKeyBit_sp (k : Key) (b : Bool) : (setKeyBit k b s).sp = s.sp := rfl
@[simp] theorem setKeyBit_stack (k : Key) (b : Bool) : (setKeyBit k b s).stack = s.stack := rfl
@[simp] theorem setKeyBit_fb (k : Key) (b : Bool) : (setKeyBit k b s).fb = s.fb := rfl
@[simp] theorem setKeyBit_dt (k : Key) (b : Bool) : (setKeyBit k b s).dt = s.dt := rfl
@[simp] theorem setKeyBit_st (k : Key) (b : Bool) : (setKeyBit k b s).st = s.st := rfl
@[simp] theorem setKeyBit_key (k : Key) (b : Bool) : (setKeyBit k b s).key = s.key.set k b := rfl
@[simp] theorem setKeyBit_kw (k : Key) (b : Bool) : (setKeyBit k b s).kw = s.kw := rfl
@[simp] theorem setKeyBit_mem (k : Key) (b : Bool) : (setKeyBit k b s).mem = s.mem := rfl
@[simp] theorem setKeyBit_extHi (k : Key) (b : Bool) : (setKeyBit k b s).extHi = s.extHi := rfl
@[simp] theorem setKeyBit_params (k : Key) (b : Bool) : (setKeyBit k b s).params = s.params := rfl
@[simp] theorem setKeyBit_rnd (k : Key) (b : Bool) : (setKeyBit k b s).rnd = s.rnd := rfl
@[simp] theorem setKeyBit_pending (k : Key) (b : Bool) : (setKeyBit k b s).pending = s.pending := rfl
@[simp] theorem setKeyBit_rndDraws (k : Key) (b : Bool) : (setKeyBit k b s).rndDraws = s.rndDraws := rfl

/-! ### writeByte -/

@[simp] theorem writeByte_v (a : Nat) (x : Byte) : (writeByte a x s).v = s.v := rfl
@[simp] theorem writeByte_index (a : Nat) (x : Byte) : (writeByte a x s).index = s.index := rfl
@[simp] theorem writeByte_pc (a : Nat) (x : Byte) : (writeByte a x s).pc = s.pc := rfl
@[simp] theorem writeByte_sp (a : Nat) (x : Byte) : (writeByte a x s).sp = s.sp := rfl
@[simp] theorem writeByte_stack (a : Nat) (x : Byte) : (writeByte a x s).stack = s.stack := rfl
@[simp] theorem writeByte_fb (a : Nat) (x : Byte) : (writeByte a x s).fb = s.fb := rfl
@[simp] theorem writeByte_dt (a : Nat) (x : Byte) : (writeByte a x s).dt = s.dt := rfl
@[simp] theorem writeByte_st (a : Nat) (x : Byte) : (writeByte a x s).st = s.st := rfl
@[simp] theorem writeByte_key (a : Nat) (x : Byte) : (writeByte a x s).key = s.key := rfl
@[simp] theorem writeByte_kw (a : Nat) (x : Byte) : (writeByte a x s).kw = s.kw := rfl
@[simp] theorem writeByte_mem (a : Nat) (x : Byte) : (writeByte a x s).mem = Memory.write s.params s.mem a x := rfl
@[simp] theorem writeByte_extHi (a : Nat) (x : Byte) : (writeByte a x s).extHi = s.extHi := rfl
@[simp] theorem writeByte_params (a : Nat) (x : Byte) : (writeByte a x s).params = s.params := rfl
@[simp] theorem writeByte_rnd (a : Nat) (x : Byte) : (writeByte a x s).rnd = s.rnd := rfl
@[simp] theorem writeByte_pending (a : Nat) (x : Byte) : (writeByte a x s).pending = s.pending := rfl
@[simp] theorem writeByte_rndDraws (a : Nat) (x : Byte) : (writeByte a x s).rndDraws = s.rndDraws := rfl

/-! ### latchRnd -/

@[simp] theorem latchRnd_v (x : Byte) : (latchRnd x s).v = s.v := rfl
@[simp] theorem latchRnd_index (x : Byte) : (latchRnd x s).index = s.index := rfl
@[simp] theorem latchRnd_pc (x : Byte) : (latchRnd x s).pc = s.pc := rfl
@[simp] theorem latchRnd_sp (x : Byte) : (latchRnd x s).sp = s.sp := rfl
@[simp] theorem latchRnd_stack (x : Byte) : (latchRnd x s).stack = s.stack := rfl
@[simp] theorem latchRnd_fb (x : Byte) : (latchRnd x s).fb = s.fb := rfl
@[simp] theorem latchRnd_dt (x : Byte) : (latchRnd x s).dt = s.dt := rfl
@[simp] theorem latchRnd_st (x : Byte) : (latchRnd x s).st = s.st := rfl
@[simp] theorem latchRnd_key (x : Byte) : (latchRnd x s).key = s.key := rfl
@[simp] theorem latchRnd_kw (x : Byte) : (latchRnd x s).kw = s.kw := rfl
@[simp] theorem latchRnd_mem (x : Byte) : (latchRnd x s).mem = s.mem := rfl
@[simp] theorem latchRnd_extHi (x : Byte) : (latchRnd x s).extHi = s.extHi := rfl
@[simp] theorem latchRnd_params (x : Byte) : (latchRnd x s).params = s.params := rfl
@[simp] theorem latchRnd_rnd (x : Byte) : (latchRnd x s).rnd = x := rfl
@[simp] theorem latchRnd_pending (x : Byte) : (latchRnd x s).pending = s.pending := rfl
@[simp] theorem latchRnd_rndDraws (x : Byte) : (latchRnd x s).rndDraws = s.rndDraws := rfl

/-! ### tickTimers -/

@[simp] theorem tickTimers_v : (tickTimers s).v = s.v := rfl
@[simp] theorem tickTimers_index : (tickTimers s).index = s.index := rfl
@[simp] theorem tickTimers_pc : (tickTimers s).pc = s.pc := rfl
@[simp] theorem tickTimers_sp : (tickTimers s).sp = s.sp := rfl
@[simp] theorem tickTimers_stack : (tickTimers s).stack = s.stack := rfl
@[simp] theorem tickTimers_fb : (tickTimers s).fb = s.fb := rfl
@[simp] theorem tickTimers_dt : (tickTimers s).dt = tickDown s.dt := rfl
@[simp] theorem tickTimers_st : (tickTimers s).st = tickDown s.st := rfl
@[simp] theorem tickTimers_key : (tickTimers s).key = s.key := rfl
@[simp] theorem tickTimers_kw : (tickTimers s).kw = s.kw := rfl
@[simp] theorem tickTimers_mem : (tickTimers s).mem = s.mem := rfl
@[simp] theorem tickTimers_extHi : (tickTimers s).extHi = s.extHi := rfl
@[simp] theorem tickTimers_params : (tickTimers s).params = s.params := rfl
@[simp] theorem tickTimers_rnd : (tickTimers s).rnd = s.rnd := rfl
@[simp] theorem tickTimers_pending : (tickTimers s).pending = s.pending := rfl
@[simp] theorem tickTimers_rndDraws : (tickTimers s).rndDraws = s.rndDraws := rfl

/-! ### Accessors after updates -/

theorem readV_eq (r : Reg) : readV s r = s.v[r] := rfl

@[simp] theorem readV_writeV_same (r : Reg) (x : Byte) : readV (writeV r x s) r = x := by
  simp [readV]

theorem readV_writeV (r q : Reg) (x : Byte) : readV (writeV r x s) q = if q = r then x else readV s q := by
  by_cases h : q = r
  · subst h; simp
  · have : r.val ≠ q.val := fun e => h (Fin.ext e.symm)
    simp [readV, h, Vector.getElem_set_ne _ _ this]

theorem readV_writeV_ne {r q : Reg} (h : q ≠ r) (x : Byte) : readV (writeV r x s) q = readV s q := by
  simp [readV_writeV, h]

/-- Reading a register looks at V alone. -/
theorem readV_congr {s t : State} (h : t.v = s.v) (r : Reg) : readV t r = readV s r := by simp [readV, h]

/-- Reading memory looks at MEM and the parameters alone. -/
theorem readByte_congr {s t : State} (hm : t.mem = s.mem) (hp : t.params = s.params) (a : Nat) :
    readByte t a = readByte s a := by simp [readByte, hm, hp]

/-- Fetching looks at PC, MEM and the parameters alone. -/
theorem fetchWord_congr {s t : State} (hpc : t.pc = s.pc) (hm : t.mem = s.mem) (hp : t.params = s.params) :
    fetchWord t = fetchWord s := by simp [fetchWord, readByte, hpc, hm, hp]

theorem keyDown_setKeyBit (k j : Key) (b : Bool) : keyDown (setKeyBit k b s) j = if j = k then b else keyDown s j := by
  by_cases h : j = k
  · subst h; simp [keyDown]
  · have : k.val ≠ j.val := fun e => h (Fin.ext e.symm)
    simp [keyDown, h, Vector.getElem_set_ne _ _ this]

/-- Toggling one pixel flips that pixel and no other. -/
theorem pixelAt_togglePixel (fb : Vector (BitVec 64) 32) (y y' : Fin 32) (x x' : Fin 64) :
    pixelAt (togglePixel y x fb) y' x' = (pixelAt fb y' x' ^^ decide (y' = y ∧ x' = x)) := by
  unfold pixelAt togglePixel
  by_cases hy : y' = y
  · subst hy
    simp only [Fin.getElem_fin, Vector.getElem_set_self, BitVec.getLsbD_xor, BitVec.getLsbD_twoPow, true_and]
    congr 1
    by_cases hx : x' = x
    · subst hx; simp
    · have : x.val ≠ x'.val := fun e => hx (Fin.ext e.symm)
      simp [hx, this]
  · have : y.val ≠ y'.val := fun e => hy (Fin.ext e.symm)
    simp [hy, Vector.getElem_set_ne _ _ this]

@[simp] theorem pixelAt_clearFb (y : Fin 32) (x : Fin 64) : pixelAt clearFb y x = false := by
  simp [pixelAt, clearFb]

end Sys2Proof.Machine
end

