-- ==== Sys2Proof/Laws/Ops.lean ====
section
/-! SUPPORT. For each shared operation, once, everything it can do. -/

namespace Sys2Proof.Machine

/-! ### Ends of an instruction -/

theorem next_eq (s : State) : next s = .next (setPc (s.pc + 2) s) := rfl

theorem skipIf_eq (c : Bool) (s : State) :
    skipIf c s = .next (setPc (if c then s.pc + 4 else s.pc + 2) s) := by
  cases c <;> rfl

/-! ### The range check -/

theorem inRange_iff (base len : Nat) : inRange base len = true ↔ len = 0 ∨ base + len - 1 ≤ 4095 := by
  simp [inRange]

/-- A ranged access that is in range runs; one that is not raises and changes nothing (20_memory.md R57, R58). -/
theorem withAccess_cases (base len : Nat) (k : State → Result) (s : State) :
    ((len = 0 ∨ base + len - 1 ≤ 4095) ∧ withAccess base len k s = k s) ∨
    (0 < len ∧ 4095 < base + len - 1 ∧
      withAccess base len k s = .fault (.memoryAccessOutOfBounds (max base 4096))) := by
  by_cases h : inRange base len = true
  · exact .inl ⟨(inRange_iff base len).1 h, by simp [withAccess, h]⟩
  · refine .inr ?_
    have h' := mt (inRange_iff base len).2 h
    refine ⟨by omega, by omega, ?_⟩
    simp [withAccess, h, raise, lowestOutOfRange]

theorem withAccess_next {base len : Nat} {k : State → Result} {s t : State}
    (h : withAccess base len k s = .next t) : (len = 0 ∨ base + len - 1 ≤ 4095) ∧ k s = .next t := by
  rcases withAccess_cases base len k s with ⟨hr, he⟩ | ⟨_, _, he⟩
  · exact ⟨hr, he ▸ h⟩
  · rw [he] at h; cases h

/-! ### The return stack -/

/-- A push either has a free slot and continues from the pushed state, or raises (41_control_flow.md R112). -/
theorem push_cases (x : Word) (k : State → Result) (s : State) :
    (∃ h : s.sp.val < 16, push x k s = k { s with stack := s.stack.set s.sp.val x, sp := ⟨s.sp.val + 1, by omega⟩ }) ∨
    (s.sp.val = 16 ∧ push x k s = .fault .stackOverflow) := by
  by_cases h : s.sp.val < 16
  · exact .inl ⟨h, by simp [push, h]⟩
  · refine .inr ⟨by omega, by simp [push, h, raise]⟩

/-- A pop either has a live slot and continues from the popped state, or raises (41_control_flow.md R110). -/
theorem pop_cases (k : Word → State → Result) (s : State) :
    (∃ h : 0 < s.sp.val, pop k s = k (s.stack[s.sp.val - 1]'(by omega)) { s with sp := ⟨s.sp.val - 1, by omega⟩ }) ∨
    (s.sp.val = 0 ∧ pop k s = .fault .stackUnderflow) := by
  by_cases h : 0 < s.sp.val
  · exact .inl ⟨h, by simp [pop, h]⟩
  · refine .inr ⟨by omega, by simp [pop, h, raise]⟩

/-! ### Results and flags -/

/-- A result and a flag: VF holds the flag, V[X] the result unless X = 15, every other register as before. -/
theorem readV_writeResultAndFlag (x r : Reg) (a f : Byte) (s : State) :
    readV (writeResultAndFlag x a f s) r = if r = .vf then f else if r = x then a else readV s r := by
  unfold writeResultAndFlag
  rw [readV_writeV, readV_writeV]

/-- Writing a result and a flag touches V alone. -/
theorem writeResultAndFlag_eq (x : Reg) (a f : Byte) (s : State) :
    writeResultAndFlag x a f s = { s with v := (writeResultAndFlag x a f s).v } := rfl

/-! ### Register transfers -/

theorem mem_allRegs (r : Reg) : r ∈ allRegs := by revert r; decide

theorem mem_allKeys (k : Key) : k ∈ allKeys := by revert k; decide

@[simp] theorem mem_regsUpTo (x r : Reg) : r ∈ regsUpTo x ↔ r ≤ x := by
  simp [regsUpTo, mem_allRegs]

theorem regsUpTo_nodup (x : Reg) : (regsUpTo x).Nodup := by revert x; decide

/-- Storing registers touches MEM alone. -/
theorem storeRegsAt_eq (base : Nat) (rs : List Reg) (s : State) :
    storeRegsAt base rs s = { s with mem := (storeRegsAt base rs s).mem } := by
  unfold storeRegsAt
  induction rs generalizing s with
  | nil => rfl
  | cons r rs ih => rw [List.foldl_cons, ih]; rfl

/-- Storing registers leaves every address that is none of theirs alone. -/
theorem readByte_storeRegsAt_ne (base : Nat) (rs : List Reg) (s : State) (a : Nat) (h : ∀ r ∈ rs, a ≠ base + r.val) :
    readByte (storeRegsAt base rs s) a = readByte s a := by
  unfold storeRegsAt
  induction rs generalizing s with
  | nil => rfl
  | cons r rs ih =>
    rw [List.foldl_cons, ih _ (fun q hq => h q (by simp [hq]))]
    exact readByte_writeByte_ne s (h r (by simp)) _

/-- After storing registers in range, each one's byte stands at its address, and the canonical form is kept. -/
theorem readByte_storeRegsAt (base : Nat) (rs : List Reg) (s : State) (hm : Memory.wf s.params s.mem)
    (hb : ∀ r ∈ rs, base + r.val < Config.memSize) (hd : rs.Nodup) (r : Reg) (hr : r ∈ rs) :
    readByte (storeRegsAt base rs s) (base + r.val) = readV s r := by
  induction rs generalizing s with
  | nil => simp at hr
  | cons q rs ih =>
    obtain ⟨hq, hd'⟩ := List.nodup_cons.1 hd
    have hw := writeByte_wf hm (hb q (by simp)) (readV s q)
    have e : storeRegsAt base (q :: rs) s = storeRegsAt base rs (writeByte (base + q.val) (readV s q) s) := rfl
    rw [e]
    rcases List.mem_cons.1 hr with h | h
    · subst h
      rw [readByte_storeRegsAt_ne base rs _ _ (fun q' hq' e => hq (by
        have : q' = r := Fin.ext (by omega)
        exact this ▸ hq')), readByte_writeByte hm]
      simp
    · exact ih _ hw (fun q' hq' => hb q' (by simp [hq'])) hd' h

theorem storeRegsAt_wf (base : Nat) (rs : List Reg) (s : State) (hm : Memory.wf s.params s.mem)
    (hb : ∀ r ∈ rs, base + r.val < Config.memSize) :
    Memory.wf (storeRegsAt base rs s).params (storeRegsAt base rs s).mem := by
  unfold storeRegsAt
  induction rs generalizing s with
  | nil => exact hm
  | cons q rs ih => exact ih _ (writeByte_wf hm (hb q (by simp)) _) (fun r hr => hb r (by simp [hr]))

/-- Loading registers touches V alone. -/
theorem loadRegsAt_eq (base : Nat) (rs : List Reg) (s : State) :
    loadRegsAt base rs s = { s with v := (loadRegsAt base rs s).v } := by
  unfold loadRegsAt
  induction rs generalizing s with
  | nil => rfl
  | cons r rs ih => rw [List.foldl_cons, ih]; rfl

/-- After loading registers, each one listed holds the byte at its address and every other one is as before. -/
theorem readV_loadRegsAt (base : Nat) (rs : List Reg) (s : State) (r : Reg) :
    readV (loadRegsAt base rs s) r = if r ∈ rs then readByte s (base + r.val) else readV s r := by
  unfold loadRegsAt
  induction rs generalizing s with
  | nil => simp
  | cons q rs ih =>
    rw [List.foldl_cons, ih]
    have hb : ∀ a, readByte (writeV q (readByte s (base + q.val)) s) a = readByte s a := fun a =>
      readByte_congr rfl rfl a
    rw [hb, readV_writeV]
    by_cases h : r ∈ rs
    · simp [h]
    · by_cases e : r = q <;> simp [h, e]

/-! ### The digits of FX33 -/

theorem storeDigits_eq (base : Nat) (b : Byte) (s : State) :
    storeDigits base b s = { s with mem := (storeDigits base b s).mem } := rfl

theorem readByte_storeDigits {s : State} (hm : Memory.wf s.params s.mem) {base : Nat} (hb : base + 2 < Config.memSize)
    (b : Byte) (a : Nat) :
    readByte (storeDigits base b s) a =
      if a = base + 2 then units b else if a = base + 1 then tens b else if a = base then hundreds b else readByte s a := by
  have h0 := writeByte_wf hm (a := base) (by omega) (hundreds b)
  have h1 := writeByte_wf h0 (a := base + 1) (by omega) (tens b)
  unfold storeDigits
  rw [readByte_writeByte h1, readByte_writeByte h0, readByte_writeByte hm]

theorem readByte_storeDigits_ne (s : State) (base : Nat) (b : Byte) (a : Nat) (h : a < base ∨ base + 2 < a) :
    readByte (storeDigits base b s) a = readByte s a := by
  unfold storeDigits
  rw [readByte_writeByte_ne _ (by omega), readByte_writeByte_ne _ (by omega), readByte_writeByte_ne _ (by omega)]

theorem storeDigits_wf {s : State} (hm : Memory.wf s.params s.mem) {base : Nat} (hb : base + 2 < Config.memSize)
    (b : Byte) : Memory.wf (storeDigits base b s).params (storeDigits base b s).mem :=
  writeByte_wf (writeByte_wf (writeByte_wf hm (by omega) _) (by omega) _) (by omega) _

/-! ### Drawing -/

/-- One sprite bit: the pixel it lands on flips if the bit is 1, no other pixel changes (40_display.md R104). -/
theorem pixelAt_drawPixel (y y' : Fin 32) (x x' : Fin 64) (b : Bool) (cv : Canvas) :
    pixelAt (drawPixel y x b cv).1 y' x' = (pixelAt cv.1 y' x' ^^ (b && decide (y' = y ∧ x' = x))) := by
  cases b <;> simp [drawPixel, pixelAt_togglePixel]

/-- One sprite bit: a collision is a 1 bit on a set pixel (R104). -/
theorem hit_drawPixel (y : Fin 32) (x : Fin 64) (b : Bool) (cv : Canvas) :
    (drawPixel y x b cv).2 = (cv.2 || (b && pixelAt cv.1 y x)) := by
  cases b <;> simp [drawPixel]

/-! ### Keys -/

/-- The lowest pressed key is pressed, and every key below it is up (45_keypad.md R183). -/
theorem lowestPressed_some {s : State} {k : Key} (h : lowestPressed s = some k) :
    keyDown s k = true ∧ ∀ j, j < k → keyDown s j = false := by
  refine ⟨by simpa using List.find?_some h, fun j hj => ?_⟩
  rw [lowestPressed, List.find?_eq_some_iff_append] at h
  obtain ⟨_, as, bs, hl, hn⟩ := h
  have hs : allKeys.Pairwise (· < ·) := by decide
  have hm := mem_allKeys j
  rw [hl] at hs hm
  obtain ⟨_, hs2, hs3⟩ := List.pairwise_append.1 hs
  rcases List.mem_append.1 hm with hm | hm
  · simpa using hn j hm
  · rcases List.mem_cons.1 hm with hm | hm
    · subst hm; exact absurd hj (Nat.lt_irrefl _)
    · exact absurd ((List.pairwise_cons.1 hs2).1 j hm) (Nat.lt_asymm hj)

theorem lowestPressed_none {s : State} : lowestPressed s = none ↔ ∀ k, keyDown s k = false := by
  simp only [lowestPressed, List.find?_eq_none]
  exact ⟨fun h k => by simpa using h k (mem_allKeys k), fun h k _ => by simp [h k]⟩

end Sys2Proof.Machine
end

