-- ==== Sys2Proof/Laws/PerInstr.lean ====
section
/-! SUPPORT. What holds of every instruction as syntax, one lemma per constructor: its word lies in its row of the opcode
map (30_encoding.md R77). -/

namespace Sys2Proof.Laws.EncodingInRow

/-- The row of the opcode map with the instruction's number covers its word (R77). -/
def Statement (i : Instr) : Prop := ∃ r ∈ opcodeRows, r.number = i.rowNumber ∧ r.covers (encode i) = true

/-- A format-NNN word under the mask F000. -/
theorem formatNNN_masked (g : BitVec 4) (nnn : BitVec 12) :
    formatNNN g nnn &&& 0xF000 = g.setWidth 16 <<< 12 := by
  apply BitVec.eq_of_getLsbD_eq
  intro i hi
  interval_cases i <;> simp [formatNNN]

/-- A format-XNN word under the mask F000. -/
theorem formatXNN_masked (g : BitVec 4) (x : Reg) (nn : Byte) :
    formatXNN g x nn &&& 0xF000 = g.setWidth 16 <<< 12 := by
  apply BitVec.eq_of_getLsbD_eq
  intro i hi
  interval_cases i <;> simp [formatXNN]

/-- A format-XSS word under the mask F0FF. -/
theorem formatXSS_masked (g : BitVec 4) (x : Reg) (nn : Byte) :
    formatXNN g x nn &&& 0xF0FF = g.setWidth 16 <<< 12 ||| nn.setWidth 16 := by
  apply BitVec.eq_of_getLsbD_eq
  intro i hi
  interval_cases i <;> simp [formatXNN]

/-- A format-XYN word under the mask F000. -/
theorem formatXYN_masked (g : BitVec 4) (x y : Reg) (n : BitVec 4) :
    formatXYN g x y n &&& 0xF000 = g.setWidth 16 <<< 12 := by
  apply BitVec.eq_of_getLsbD_eq
  intro i hi
  interval_cases i <;> simp [formatXYN]

/-- A format-XYS word under the mask F00F. -/
theorem formatXYS_masked (g : BitVec 4) (x y : Reg) (n : BitVec 4) :
    formatXYN g x y n &&& 0xF00F = g.setWidth 16 <<< 12 ||| n.setWidth 16 := by
  apply BitVec.eq_of_getLsbD_eq
  intro i hi
  interval_cases i <;> simp [formatXYN]

/-- A row named by its number, mask and value covers a word that agrees with it under the mask. -/
theorem of_row {i : Instr} (r : OpcodeRow) (hr : r ∈ opcodeRows) (hn : r.number = i.rowNumber)
    (hc : encode i &&& r.mask = r.value) : Statement i := ⟨r, hr, hn, by simp [OpcodeRow.covers, hc]⟩

theorem cls : Statement (.cls) :=
  of_row ⟨1, 0xFFFF, 0x00E0⟩ (by decide) rfl (by decide)

theorem ret : Statement (.ret) :=
  of_row ⟨2, 0xFFFF, 0x00EE⟩ (by decide) rfl (by decide)

theorem jp (nnn : BitVec 12) : Statement (.jp nnn) :=
  of_row ⟨3, 0xF000, 0x1000⟩ (by decide) rfl ((formatNNN_masked ..).trans (by decide))

theorem call (nnn : BitVec 12) : Statement (.call nnn) :=
  of_row ⟨4, 0xF000, 0x2000⟩ (by decide) rfl ((formatNNN_masked ..).trans (by decide))

theorem seImm (x : Reg) (nn : Byte) : Statement (.seImm x nn) :=
  of_row ⟨5, 0xF000, 0x3000⟩ (by decide) rfl ((formatXNN_masked ..).trans (by decide))

theorem sneImm (x : Reg) (nn : Byte) : Statement (.sneImm x nn) :=
  of_row ⟨6, 0xF000, 0x4000⟩ (by decide) rfl ((formatXNN_masked ..).trans (by decide))

theorem seReg (x y : Reg) : Statement (.seReg x y) :=
  of_row ⟨7, 0xF00F, 0x5000⟩ (by decide) rfl ((formatXYS_masked ..).trans (by decide))

theorem ldImm (x : Reg) (nn : Byte) : Statement (.ldImm x nn) :=
  of_row ⟨8, 0xF000, 0x6000⟩ (by decide) rfl ((formatXNN_masked ..).trans (by decide))

theorem addImm (x : Reg) (nn : Byte) : Statement (.addImm x nn) :=
  of_row ⟨9, 0xF000, 0x7000⟩ (by decide) rfl ((formatXNN_masked ..).trans (by decide))

theorem mov (x y : Reg) : Statement (.mov x y) :=
  of_row ⟨10, 0xF00F, 0x8000⟩ (by decide) rfl ((formatXYS_masked ..).trans (by decide))

theorem or (x y : Reg) : Statement (.or x y) :=
  of_row ⟨11, 0xF00F, 0x8001⟩ (by decide) rfl ((formatXYS_masked ..).trans (by decide))

theorem and (x y : Reg) : Statement (.and x y) :=
  of_row ⟨12, 0xF00F, 0x8002⟩ (by decide) rfl ((formatXYS_masked ..).trans (by decide))

theorem xor (x y : Reg) : Statement (.xor x y) :=
  of_row ⟨13, 0xF00F, 0x8003⟩ (by decide) rfl ((formatXYS_masked ..).trans (by decide))

theorem addReg (x y : Reg) : Statement (.addReg x y) :=
  of_row ⟨14, 0xF00F, 0x8004⟩ (by decide) rfl ((formatXYS_masked ..).trans (by decide))

theorem sub (x y : Reg) : Statement (.sub x y) :=
  of_row ⟨15, 0xF00F, 0x8005⟩ (by decide) rfl ((formatXYS_masked ..).trans (by decide))

theorem shr (x y : Reg) : Statement (.shr x y) :=
  of_row ⟨16, 0xF00F, 0x8006⟩ (by decide) rfl ((formatXYS_masked ..).trans (by decide))

theorem subn (x y : Reg) : Statement (.subn x y) :=
  of_row ⟨17, 0xF00F, 0x8007⟩ (by decide) rfl ((formatXYS_masked ..).trans (by decide))

theorem shl (x y : Reg) : Statement (.shl x y) :=
  of_row ⟨18, 0xF00F, 0x800E⟩ (by decide) rfl ((formatXYS_masked ..).trans (by decide))

theorem sneReg (x y : Reg) : Statement (.sneReg x y) :=
  of_row ⟨19, 0xF00F, 0x9000⟩ (by decide) rfl ((formatXYS_masked ..).trans (by decide))

theorem ldI (nnn : BitVec 12) : Statement (.ldI nnn) :=
  of_row ⟨20, 0xF000, 0xA000⟩ (by decide) rfl ((formatNNN_masked ..).trans (by decide))

theorem jpV0 (nnn : BitVec 12) : Statement (.jpV0 nnn) :=
  of_row ⟨21, 0xF000, 0xB000⟩ (by decide) rfl ((formatNNN_masked ..).trans (by decide))

theorem rnd (x : Reg) (nn : Byte) : Statement (.rnd x nn) :=
  of_row ⟨22, 0xF000, 0xC000⟩ (by decide) rfl ((formatXNN_masked ..).trans (by decide))

theorem drw (x y : Reg) (n : Nat) : Statement (.drw x y n) :=
  of_row ⟨23, 0xF000, 0xD000⟩ (by decide) rfl ((formatXYN_masked ..).trans (by decide))

theorem skp (x : Reg) : Statement (.skp x) :=
  of_row ⟨24, 0xF0FF, 0xE09E⟩ (by decide) rfl ((formatXSS_masked ..).trans (by decide))

theorem sknp (x : Reg) : Statement (.sknp x) :=
  of_row ⟨25, 0xF0FF, 0xE0A1⟩ (by decide) rfl ((formatXSS_masked ..).trans (by decide))

theorem ldVxDt (x : Reg) : Statement (.ldVxDt x) :=
  of_row ⟨26, 0xF0FF, 0xF007⟩ (by decide) rfl ((formatXSS_masked ..).trans (by decide))

theorem ldVxK (x : Reg) : Statement (.ldVxK x) :=
  of_row ⟨27, 0xF0FF, 0xF00A⟩ (by decide) rfl ((formatXSS_masked ..).trans (by decide))

theorem ldDtVx (x : Reg) : Statement (.ldDtVx x) :=
  of_row ⟨28, 0xF0FF, 0xF015⟩ (by decide) rfl ((formatXSS_masked ..).trans (by decide))

theorem ldStVx (x : Reg) : Statement (.ldStVx x) :=
  of_row ⟨29, 0xF0FF, 0xF018⟩ (by decide) rfl ((formatXSS_masked ..).trans (by decide))

theorem addI (x : Reg) : Statement (.addI x) :=
  of_row ⟨30, 0xF0FF, 0xF01E⟩ (by decide) rfl ((formatXSS_masked ..).trans (by decide))

theorem ldF (x : Reg) : Statement (.ldF x) :=
  of_row ⟨31, 0xF0FF, 0xF029⟩ (by decide) rfl ((formatXSS_masked ..).trans (by decide))

theorem bcd (x : Reg) : Statement (.bcd x) :=
  of_row ⟨32, 0xF0FF, 0xF033⟩ (by decide) rfl ((formatXSS_masked ..).trans (by decide))

theorem storeRegs (x : Reg) : Statement (.storeRegs x) :=
  of_row ⟨33, 0xF0FF, 0xF055⟩ (by decide) rfl ((formatXSS_masked ..).trans (by decide))

theorem loadRegs (x : Reg) : Statement (.loadRegs x) :=
  of_row ⟨34, 0xF0FF, 0xF065⟩ (by decide) rfl ((formatXSS_masked ..).trans (by decide))

theorem halt : Statement (.halt) :=
  of_row ⟨35, 0xFFFF, 0xFFFF⟩ (by decide) rfl (by decide)

end Sys2Proof.Laws.EncodingInRow
end

