-- ==== Sys2Proof/Laws/Step.lean ====
section
/-! SUPPORT. What one Step cycle, one event and one Load can do, each said once. -/

namespace Sys2Proof.Machine

/-- The loaded extent, in numbers (20_memory.md R59). -/
theorem inExtent_iff (s : State) : inExtent s = true ↔ 0x200 ≤ s.pc.toNat ∧ s.pc.toNat < s.extHi := by
  simp only [inExtent, Bool.and_eq_true, decide_eq_true_eq]; rfl

/-- One cycle: Halted outside the extent, an error at the top of memory, or the fetched word is executed
(30_encoding.md R76). -/
theorem cycle_cases (s : State) :
    (¬ (0x200 ≤ s.pc.toNat ∧ s.pc.toNat < s.extHi) ∧ cycle s = .fault .halted) ∨
    (0x200 ≤ s.pc.toNat ∧ s.pc.toNat < s.extHi ∧ 4095 ≤ s.pc.toNat ∧
      cycle s = .fault (.memoryAccessOutOfBounds 4096)) ∨
    (0x200 ≤ s.pc.toNat ∧ s.pc.toNat < s.extHi ∧ s.pc.toNat ≤ 4094 ∧ cycle s = executeWord (fetchWord s) s) := by
  by_cases h : inExtent s = true
  · obtain ⟨h1, h2⟩ := (inExtent_iff s).1 h
    by_cases h3 : s.pc.toNat + 1 > 4095
    · exact .inr (.inl ⟨h1, h2, by omega, by simp [cycle, h, h3, raise]⟩)
    · exact .inr (.inr ⟨h1, h2, by omega, by simp only [cycle, h, h3, Bool.not_true, if_false, Bool.false_eq_true]⟩)
  · exact .inl ⟨fun hn => h ((inExtent_iff s).2 hn), by simp [cycle, h, returnHalted]⟩

/-- The word is executed as the instruction it decodes to. -/
theorem executeWord_ok {w : Word} {i : Instr} (h : decode w = .ok i) (s : State) : executeWord w s = exec i s := by
  simp [executeWord, h]

/-- An Unknown word fails. -/
theorem executeWord_unknown {w u : Word} (h : decode w = .unknown u) (s : State) :
    executeWord w s = .fault (.unimplementedOpcode u) := by
  simp [executeWord, h, executeUnknown, raise]

/-- A step performs the oldest pending event. -/
theorem step_of_pending {s : State} {e : Event} {es : List Event} (h : s.pending = e :: es) :
    step s = perform e { s with pending := es } := by
  simp [step, nextEvent, h]

/-- With nothing pending a step is a Step event with a free random byte. -/
theorem step_of_nothing_pending {s : State} (h : s.pending = []) :
    step s = perform (.step (Config.rndByte s.rndDraws)) { s with rndDraws := s.rndDraws + 1 } := by
  simp [step, nextEvent, h]

/-- An event that answers a next state leaves that state. -/
theorem afterEvent_next {s t : State} {e : Event} (h : perform e s = .next t) : afterEvent s e = t := by
  simp [afterEvent, h]

/-- An event that answers an error or Halted leaves the state it was given (60_exceptions.md R205). -/
theorem afterEvent_fault {s : State} {e : Event} {f : Fault} (h : perform e s = .fault f) : afterEvent s e = s := by
  simp [afterEvent, h]

@[simp] theorem afterEvents_nil (s : State) : afterEvents s [] = s := rfl

@[simp] theorem afterEvents_cons (s : State) (e : Event) (es : List Event) :
    afterEvents s (e :: es) = afterEvents (afterEvent s e) es := rfl

/-- An image that fits is loaded. -/
theorem load_next (p : Params) {image : List Byte} (h : image.length ≤ 3584) :
    load p image = .next { State.reset with
      params := p
      mem := Memory.ofBytes p 0x200 image
      extHi := 0x200 + image.length } := by
  have : ¬ image.length > Config.romMax := by simp [Config.romMax]; omega
  simp [load, this, Config.origin]

/-- An image that does not fit is not. -/
theorem load_fault (p : Params) {image : List Byte} (h : 3584 < image.length) :
    load p image = .fault .romTooLarge := by
  have : image.length > Config.romMax := by simp [Config.romMax]; omega
  simp [load, this]

/-- A timer one tick later, in numbers (60_exceptions.md R214). -/
theorem toNat_tickDown (b : Byte) : (tickDown b).toNat = b.toNat - 1 := by
  unfold tickDown
  have := b.isLt
  split
  · rw [BitVec.toNat_sub]
    have : (1 : Byte).toNat = 1 := rfl
    omega
  · simp; omega

end Sys2Proof.Machine
end

