-- ==== Sys2Proof/Tests/Slice0.lean ====
section
/-! SUPPORT. Tests: expected values from spec/95_test_vectors.md and the rules' own examples. -/

namespace Sys2Proof.Tests

open Sys2Proof.Machine

/-! ### Well-formedness -/

/-- The one check: sixteen rows do not fit bits 3-0 (R73). -/
theorem test_sixteen_rows_are_ill_formed : ¬ (Instr.drw 0 1 16).WellFormed := by decide

theorem test_fifteen_rows_are_well_formed : (Instr.drw 0 1 15).WellFormed := by decide

/-! ### Decoding: words written out from the encodings of R72 and R77 -/

theorem test_decode_cls : decode 0b0000000011100000 = .ok .cls := by decide
theorem test_decode_ret : decode 0b0000000011101110 = .ok .ret := by decide
theorem test_decode_jp : decode 0b0001101010111100 = .ok (.jp 0xABC) := by decide
theorem test_decode_call : decode 0b0010001100000001 = .ok (.call 0x301) := by decide
theorem test_decode_seImm : decode 0b0011000101000010 = .ok (.seImm 1 0x42) := by decide
theorem test_decode_sneImm : decode 0b0100000101000011 = .ok (.sneImm 1 0x43) := by decide
theorem test_decode_seReg : decode 0b0101101010110000 = .ok (.seReg 10 11) := by decide
theorem test_decode_ldImm : decode 0b0110111110101011 = .ok (.ldImm 15 0xAB) := by decide
theorem test_decode_addImm : decode 0b0111000111111111 = .ok (.addImm 1 0xFF) := by decide
theorem test_decode_mov : decode 0b1000001000110000 = .ok (.mov 2 3) := by decide
theorem test_decode_or : decode 0b1000001000110001 = .ok (.or 2 3) := by decide
theorem test_decode_and : decode 0b1000001000110010 = .ok (.and 2 3) := by decide
theorem test_decode_xor : decode 0b1000001000110011 = .ok (.xor 2 3) := by decide
theorem test_decode_addReg : decode 0b1000001000110100 = .ok (.addReg 2 3) := by decide
theorem test_decode_sub : decode 0b1000001000110101 = .ok (.sub 2 3) := by decide
theorem test_decode_shr : decode 0b1000001000110110 = .ok (.shr 2 3) := by decide
theorem test_decode_subn : decode 0b1000101010110111 = .ok (.subn 10 11) := by decide
theorem test_decode_shl : decode 0b1000101010111110 = .ok (.shl 10 11) := by decide
theorem test_decode_sneReg : decode 0b1001101010110000 = .ok (.sneReg 10 11) := by decide
theorem test_decode_ldI : decode 0b1010000100100011 = .ok (.ldI 0x123) := by decide
theorem test_decode_jpV0 : decode 0b1011001100000000 = .ok (.jpV0 0x300) := by decide
theorem test_decode_rnd : decode 0b1100001100001111 = .ok (.rnd 3 0x0F) := by decide
theorem test_decode_drw : decode 0b1101000000011111 = .ok (.drw 0 1 15) := by decide
theorem test_decode_skp : decode 0b1110000010011110 = .ok (.skp 0) := by decide
theorem test_decode_sknp : decode 0b1110111110100001 = .ok (.sknp 15) := by decide
theorem test_decode_ldVxDt : decode 0b1111010000000111 = .ok (.ldVxDt 4) := by decide
theorem test_decode_ldVxK : decode 0b1111000000001010 = .ok (.ldVxK 0) := by decide
theorem test_decode_ldDtVx : decode 0b1111001100010101 = .ok (.ldDtVx 3) := by decide
theorem test_decode_ldStVx : decode 0b1111001100011000 = .ok (.ldStVx 3) := by decide
theorem test_decode_addI : decode 0b1111001000011110 = .ok (.addI 2) := by decide
theorem test_decode_ldF : decode 0b1111000000101001 = .ok (.ldF 0) := by decide
theorem test_decode_bcd : decode 0b1111000000110011 = .ok (.bcd 0) := by decide
theorem test_decode_storeRegs : decode 0b1111001001010101 = .ok (.storeRegs 2) := by decide
theorem test_decode_loadRegs : decode 0b1111111101100101 = .ok (.loadRegs 15) := by decide
theorem test_decode_halt : decode 0b1111111111111111 = .ok .halt := by decide

/-- Unknown words of the decode table of 95_test_vectors.md: groups 0, 5, 8 and 9. -/
theorem test_decode_unknown_low :
    [0x0000, 0x00E1, 0x0FFF, 0x5AB1, 0x8AB8, 0x8ABF, 0x9AB5].all (fun w => decode w = .unknown w) = true := by decide

/-- Unknown words of the decode table of 95_test_vectors.md: groups E and F. -/
theorem test_decode_unknown_high :
    [0xE09F, 0xE0A0, 0xF01F, 0xF0FF, 0xFFFE, 0xFEFF].all (fun w => decode w = .unknown w) = true := by decide

/-- Fetch order (D-1): A1 23 is LD I, 0x123. -/
theorem test_first_byte_is_high : decodeBytes [0xA1, 0x23] = .ok (.ldI 0x123) [] := by decide

/-! ### One step on small states -/

/-- A machine whose extent is all of [0x200, 0x1000). -/
def wide : State := { State.reset with extHi := 0x1000 }

/-- `wide` with two registers set. -/
def regs (x : Reg) (a : Byte) (y : Reg) (b : Byte) : State := writeV y b (writeV x a wide)

/-- The instruction completes and its next state passes a check. -/
def ends (o : Result) (check : State → Bool) : Bool :=
  match o with
  | .next t => check t
  | .fault _ => false
  | .refused _ => false

/-- The instruction ends with this fault. -/
def faults (o : Result) (e : Fault) : Bool :=
  match o with
  | .next _ => false
  | .fault f => f = e
  | .refused _ => false

theorem test_cls :
    ends (exec .cls (writeV 15 1 (setFb (togglePixel 3 5 clearFb) wide)))
      (fun t => !pixelAt t.fb 3 5 && readV t 15 = 1 && t.pc = 0x202) := by decide

/-- R106: the wrap-around example. -/
def wrapSprite : State :=
  setIndex 0x300 (writeByte 0x301 0x81 (writeByte 0x300 0xC3 (regs 1 62 2 31)))

theorem test_drw_wraps :
    ends (exec (.drw 1 2 2) wrapSprite) (fun t =>
      pixelAt t.fb 31 62 && pixelAt t.fb 31 63 && pixelAt t.fb 31 4 && pixelAt t.fb 31 5 && pixelAt t.fb 0 62
        && pixelAt t.fb 0 5 && !pixelAt t.fb 0 63 && readV t 15 = 0) := by decide

/-- VF = 3 is both coordinates, then the flag: FB[3][3] was clear. -/
theorem test_drw_from_vf :
    ends (exec (.drw 15 15 1) (setIndex 0x300 (writeByte 0x300 0x80 (regs 15 3 0 0))))
      (fun t => pixelAt t.fb 3 3 && readV t 15 = 0) := by decide

theorem test_ret :
    ends (exec .ret { wide with sp := 16, stack := wide.stack.set 15 0x300 })
      (fun t => t.sp = 15 && t.pc = 0x300 && t.stack[15] = 0x300) := by decide

theorem test_ret_underflow : faults (exec .ret wide) .stackUnderflow := by decide

theorem test_jp : ends (exec (.jp 0xABC) wide) (fun t => t.pc = 0x0ABC) := by decide

theorem test_call :
    ends (exec (.call 0x400) { wide with sp := 15 })
      (fun t => t.stack[15] = 0x0202 && t.sp = 16 && t.pc = 0x400) := by decide

theorem test_call_overflow : faults (exec (.call 0x400) { wide with sp := 16 }) .stackOverflow := by decide

theorem test_jpV0 : ends (exec (.jpV0 0xFFF) (regs 0 0xFF 3 0x55)) (fun t => t.pc = 0x10FE) := by decide

theorem test_seImm : ends (exec (.seImm 1 0x42) (regs 1 0x42 0 0)) (fun t => t.pc = 0x204) := by decide

theorem test_sneImm : ends (exec (.sneImm 1 0x42) (regs 1 0x42 0 0)) (fun t => t.pc = 0x202) := by decide

theorem test_seReg : ends (exec (.seReg 1 2) (regs 1 1 2 2)) (fun t => t.pc = 0x202) := by decide

theorem test_sneReg : ends (exec (.sneReg 1 2) (regs 1 1 2 2)) (fun t => t.pc = 0x204) := by decide

theorem test_ldImm : ends (exec (.ldImm 15 0xAB) wide) (fun t => readV t 15 = 0xAB) := by decide

theorem test_addImm :
    ends (exec (.addImm 1 2) (regs 1 0xFF 0 0)) (fun t => readV t 1 = 1 && readV t 15 = 0) := by decide

theorem test_mov : ends (exec (.mov 2 3) (regs 3 0x42 2 1)) (fun t => readV t 2 = 0x42) := by decide

theorem test_or :
    ends (exec (.or 0 1) (writeV 15 1 (regs 0 0x0C 1 0x0A))) (fun t => readV t 0 = 0x0E && readV t 15 = 1) := by decide

theorem test_and :
    ends (exec (.and 0 1) (writeV 15 1 (regs 0 0x0C 1 0x0A))) (fun t => readV t 0 = 0x08 && readV t 15 = 1) := by decide

theorem test_xor :
    ends (exec (.xor 0 1) (writeV 15 1 (regs 0 0x0C 1 0x0A))) (fun t => readV t 0 = 0x06 && readV t 15 = 1) := by decide

theorem test_addReg :
    ends (exec (.addReg 0 1) (regs 0 250 1 10)) (fun t => readV t 0 = 4 && readV t 15 = 1) := by decide

/-- The old VF is the operand (95_test_vectors.md, word 0x80F4). -/
theorem test_addReg_from_vf :
    ends (exec (.addReg 0 15) (regs 0 0x10 15 1)) (fun t => readV t 0 = 0x11 && readV t 15 = 0) := by decide

theorem test_sub : ends (exec (.sub 0 1) (regs 0 3 1 5)) (fun t => readV t 0 = 254 && readV t 15 = 0) := by decide

/-- The flag wins over the result (D-4). -/
theorem test_sub_into_vf : ends (exec (.sub 15 1) (regs 15 5 1 3)) (fun t => readV t 15 = 1) := by decide

theorem test_shr :
    ends (exec (.shr 0 1) (regs 0 0xFF 1 0x05)) (fun t => readV t 0 = 2 && readV t 15 = 1 && readV t 1 = 5) := by decide

theorem test_subn : ends (exec (.subn 0 1) (regs 0 1 1 0)) (fun t => readV t 0 = 0xFF && readV t 15 = 0) := by decide

theorem test_shl :
    ends (exec (.shl 0 1) (regs 0 0 1 0x81)) (fun t => readV t 0 = 2 && readV t 15 = 1 && readV t 1 = 0x81) := by decide

theorem test_ldI : ends (exec (.ldI 0xFFF) wide) (fun t => t.index = 0x0FFF) := by decide

theorem test_addI : ends (exec (.addI 0) (setIndex 0xFFFF (regs 0 2 15 0))) (fun t => t.index = 1) := by decide

theorem test_ldF : ends (exec (.ldF 0) (regs 0 0xFF 1 0)) (fun t => t.index = 0x54B) := by decide

theorem test_bcd :
    ends (exec (.bcd 0) (setIndex 0x300 (regs 0 156 1 0)))
      (fun t => readByte t 0x300 = 1 && readByte t 0x301 = 5 && readByte t 0x302 = 6 && t.index = 0x300) := by decide

theorem test_bcd_out_of_range :
    faults (exec (.bcd 0) (setIndex 0xFFE wide)) (.memoryAccessOutOfBounds 4096) := by decide

theorem test_storeRegs :
    ends (exec (.storeRegs 1) (setIndex 0x400 (regs 0 0x11 1 0x22)))
      (fun t => readByte t 0x400 = 0x11 && readByte t 0x401 = 0x22 && t.index = 0x402) := by decide

theorem test_storeRegs_out_of_range :
    faults (exec (.storeRegs 15) (setIndex 0xFF1 wide)) (.memoryAccessOutOfBounds 4096) := by decide

/-- The default glyph 0 (D-6). -/
theorem test_loadRegs :
    ends (exec (.loadRegs 4) (setIndex 0x050 wide))
      (fun t => readV t 0 = 0xF0 && readV t 1 = 0x90 && readV t 4 = 0xF0 && t.index = 0x055) := by decide

theorem test_loadRegs_out_of_range :
    faults (exec (.loadRegs 15) (setIndex 0x1001 wide)) (.memoryAccessOutOfBounds 0x1001) := by decide

theorem test_rnd : ends (exec (.rnd 3 0xF0) (latchRnd 0xB7 wide)) (fun t => readV t 3 = 0xB0) := by decide

theorem test_ldVxDt : ends (exec (.ldVxDt 4) (setDt 0x3C wide)) (fun t => readV t 4 = 0x3C) := by decide

theorem test_ldDtVx : ends (exec (.ldDtVx 0) (regs 0 0xFF 1 0)) (fun t => t.dt = 0xFF && t.st = 0) := by decide

theorem test_ldStVx : ends (exec (.ldStVx 0) (regs 0 1 1 0)) (fun t => t.st = 1 && t.dt = 0) := by decide

/-- The key index is VX mod 16 (D-10). -/
theorem test_skp : ends (exec (.skp 0) (setKey 10 true (regs 0 0x1A 1 0))) (fun t => t.pc = 0x204) := by decide

theorem test_sknp : ends (exec (.sknp 0) (setKey 15 true (regs 0 0x0F 1 0))) (fun t => t.pc = 0x202) := by decide

theorem test_ldVxK_press :
    ends (exec (.ldVxK 5) (setKey 12 true (setKey 9 true wide)))
      (fun t => readV t 5 = 9 && t.kw = .awaitingRelease 9 && t.pc = 0x200) := by decide

theorem test_ldVxK_release :
    ends (exec (.ldVxK 5) (setKw (.awaitingRelease 9) (setKey 3 true (regs 5 9 0 0))))
      (fun t => t.kw = .idle && t.pc = 0x202 && readV t 5 = 9) := by decide

theorem test_halt : faults (exec .halt wide) .halted := by decide

/-! ### Events and the Step cycle -/

theorem test_tick :
    (tickTimers (setSt 1 (setDt 0xFF wide))).dt = 0xFE ∧ (tickTimers (setSt 1 wide)).st = 0
      ∧ (tickTimers wide).dt = 0 := by decide

theorem test_empty_image_halts : faults (step State.reset) .halted := by decide

/-- One byte 60: the word is 0x6000, its low byte from memory past the image. -/
theorem test_one_byte_image :
    (match load defaultParams [0x60] with
      | .next s => ends (step s) (fun t => t.pc = 0x202 && faults (step t) .halted)
      | .fault _ => false
      | .refused _ => false) = true := by decide

theorem test_fetch_past_the_top :
    faults (step { wide with pc := 0xFFF }) (.memoryAccessOutOfBounds 4096) := by decide

theorem test_unknown_word : faults (step wide) (.unimplementedOpcode 0x0000) := by decide

theorem test_fetch_word_runs_first :
    ends (step (State.reset.withFetchWord 16 0x609C)) (fun t => readV t 0 = 0x9C && t.pc = 0x202) := by decide

theorem test_table_word : decodeTableWord 16 0x8AB7 = some (.subn 10 11) := by decide

/-- P4 of 95_test_vectors.md, steps 1 to 9 and the ticks after the halt, from the key wait on. -/
theorem test_key_wait_run :
    (match load defaultParams [0xF3, 0x0A, 0xF3, 0x15, 0xF4, 0x07, 0xFF, 0xFF] with
      | .next s =>
        let t := afterEvents s [.step 0, .step 0, .setKey 7 true, .setKey 2 true, .step 0, .setKey 7 false, .step 0,
          .setKey 2 false, .step 0, .step 0, .tickTimers, .step 0, .step 0, .tickTimers, .tickTimers]
        t.pc = 0x206 && readV t 3 = 2 && readV t 4 = 1 && t.dt = 0 && t.kw = .idle
      | .fault _ => false
      | .refused _ => false) = true := by decide

/-! ### Witnesses: a state and operands that meet each statement's hypotheses together -/

/-- `wide` at an address, with a word there and a Step as the next event. -/
def placed (pc w : Word) : State :=
  { placeWord w { wide with pc := pc } with pending := [.step 0x5A] }

theorem witness_DecodeOfEncodeIsTheInstruction : (Instr.drw 15 0 15).WellFormed ∧ (Instr.drw 0 15 0).WellFormed := by
  decide

theorem witness_EncodeOfDecodeIsTheWord : decode 0xDF0F = .ok (.drw 15 0 15) := by decide

/-- Each clause: a decoded word, a word a row covers, a word no row covers. -/
theorem witness_DecodeFollowsTheOpcodeMap :
    decode 0xFFFF = .ok .halt ∧ (∃ r ∈ opcodeRows, r.covers 0xFFFF = true)
      ∧ ∀ r ∈ opcodeRows, r.covers 0xFFFE = false := by decide

theorem witness_NoWordLiesInTwoRows :
    ∃ r ∈ opcodeRows, ∃ q ∈ opcodeRows, r.covers 0xF155 = true ∧ q.covers 0xF155 = true := by decide

/-- The unknown words nearest to legal ones: the clause `decode w = .unknown u`. -/
theorem witness_UnknownWordsAreTheListedOnes : decode 0x00EF = .unknown 0x00EF ∧ decode 0xF056 = .unknown 0xF056 := by
  decide

/-- Below the extent, at its first and last fetchable byte, at the last byte of memory, and past EXT_HI. -/
theorem witness_StepRunsTheDecodedInstruction :
    ({ placed 0x200 0x609C with pc := 0x1FF }).pc.toNat < 0x200
      ∧ (placed 0x200 0x609C).pending = [.step 0x5A] ∧ decode (fetchWord (placed 0x200 0x609C)) = .ok (.ldImm 0 0x9C)
      ∧ (placed 0xFFE 0x609C).pc.toNat + 1 = 4095 ∧ decode (fetchWord (placed 0xFFE 0x609C)) = .ok (.ldImm 0 0x9C)
      ∧ decode (fetchWord (placed 0xFFE 0x0000)) = .unknown 0x0000
      ∧ ({ placed 0x200 0 with pc := 0xFFF }).pc.toNat < wide.extHi ∧ 4095 < (0xFFF : Word).toNat + 1
      ∧ wide.extHi ≤ ({ placed 0x200 0 with pc := 0x1000 }).pc.toNat := by decide

theorem witness_StepWithNothingPendingIsAStepEvent : wide.pending = [] := by decide

theorem witness_TickTimersDecrementsBothFlooredAtZero :
    ({ setDt 0 (setSt 255 wide) with pending := [.tickTimers] }).pending = .tickTimers :: [] := by decide

theorem witness_SetKeyChangesOneKey :
    ({ wide with pending := [.setKey 15 true, .step 0] }).pending = .setKey 15 true :: [.step 0] := by decide

/-- A run ended by HALT and one ended by an error. -/
theorem witness_EndedRunsStayEnded :
    faults (perform (.step 0x5A) (placed 0x200 0xFFFF)) .halted
      ∧ faults (perform (.step 0x5A) (placed 0x200 0x00EE)) .stackUnderflow := by decide

theorem witness_ScriptedRunIsTheEventSequence :
    let s := { placeWord 0x609C wide with pending := [.step 7, .tickTimers, .setKey 3 true] }
    ∃ t, Host.Core.run Sys2Proof.core 3 s = .next t := ⟨_, rfl⟩

/-- One byte too many, and the largest image. -/
theorem witness_LoadFailsExactlyAboveRomMax :
    3584 < (List.replicate 3585 (0 : Byte)).length ∧ (List.replicate 3584 (0 : Byte)).length = 3584 :=
  ⟨List.length_replicate ▸ by omega, List.length_replicate⟩

theorem witness_LoadPlacesGlyphsAndImage :
    [0x60, 0x9C].length ≤ 3584 ∧ 1 < [0x60, 0x9C].length ∧ defaultParams.glyphBase.val + 80 ≤ 0xA0
      ∧ 0x1FF < 0x200 ∧ 0x200 + [0x60, 0x9C].length ≤ 0x202 := by decide

/-- The digit F, the largest, and the last of its five bytes. -/
theorem witness_FontAddressPointsAtTheGlyph :
    (∃ s, load defaultParams [0xF0, 0x29] = .next s) ∧ ((Vector.replicate 16 (0x0F : Byte))[(3 : Reg)]).toNat < 16
      ∧ 15 * 5 + 4 < 80 := ⟨⟨_, rfl⟩, by decide, by decide⟩

/-- LoadedMachinesMeetTheInvariant and EveryReachableStateMeetsTheInvariant. -/
theorem witness_LoadedMachines : ∃ s, load defaultParams [0xF3, 0x0A] = .next s := ⟨_, rfl⟩

/-- A waiting machine: FX0A at 0x200 with key 9 latched in V5. -/
def waiting : State := setKw (.awaitingRelease 9) (writeV 5 9 (placed 0x200 0xF50A))

/-- WaitingMachineOnlyPolls and EveryStepKeepsTheInvariant: the invariant in a state that waits, which a step leaves. -/
theorem witness_waiting_machine_meets_the_invariant :
    Sys2Proof.Safety.Inv waiting ∧ waiting.kw ≠ .idle ∧ ∃ t, step waiting = .next t :=
  ⟨⟨show Memory.wf _ _ by decide, show _ ∧ _ by decide, fun j (h : j.val < 0) => absurd h (Nat.not_lt_zero _),
      fun _ => ⟨by decide, by decide, 5, by decide, fun k h => by cases h; decide⟩⟩, by decide, ⟨_, rfl⟩⟩

theorem witness_EqualReadsMakeEqualMemories :
    Memory.wf defaultParams [(0x050, 0x01), (0xFFF, 0x02)]
      ∧ Memory.write defaultParams [(0x050, 0x01)] 0xFFF 0x02 = [(0x050, 0x01), (0xFFF, 0x02)] := by decide

/-- EachInstructionChangesOnlyWhatItMayWrite, SoundTimerReachesNothing and RandomByteReachesOnlyCXNN: an instruction that
completes, and one that does not. -/
theorem witness_instructions_complete_and_end :
    (∃ t, exec (.storeRegs 15) (setIndex 0xFF0 wide) = .next t)
      ∧ exec .ret wide = .fault .stackUnderflow ∧ ∀ x nn, Instr.ret ≠ .rnd x nn :=
  ⟨⟨_, rfl⟩, rfl, fun _ _ h => nomatch h⟩

/-- Both clauses: an instruction that completes, and a Step that ends in an error. -/
theorem witness_PcAfterEveryInstruction :
    (∃ t, exec (.jpV0 0xFFF) (regs 0 0xFF 1 0) = .next t)
      ∧ faults (perform (.step 0) (placed 0x200 0x0000)) (.unimplementedOpcode 0) := ⟨⟨_, rfl⟩, by decide⟩

/-- Both clauses, a flag writer whose destination is VF among them. -/
theorem witness_OnlySixInstructionsWriteTheFlag :
    (∃ t, exec (.sub 15 15) wide = .next t) ∧ Sys2Proof.Safety.writesFlag (.sub 15 15) = true
      ∧ (∃ t, exec (.or 14 15) wide = .next t) ∧ Sys2Proof.Safety.writesFlag (.or 14 15) = false
      ∧ ¬ Sys2Proof.Safety.writesReg (.or 14 15) .vf :=
  ⟨⟨_, rfl⟩, rfl, ⟨_, rfl⟩, rfl, by simp [Sys2Proof.Safety.writesReg]; decide⟩

theorem witness_ProgramsThatKeepTheHazardRulesAreSafe : Sys2Proof.Safety.MeetsR236 (placed 0xFFE 0x609C) :=
  ⟨by decide, .ldImm 0 0x9C, by decide, fun _ _ h => h⟩

/-- No rows with I anywhere, and the last row at 4095; both flag clauses (covering a set pixel, covering only clear ones). -/
theorem witness_DrwFlipsExactlyTheCoveredPixels :
    (Instr.drw 1 2 0).WellFormed ∧ ((0 : Nat) = 0 ∨ (0xFFFF : Word).toNat + 0 - 1 ≤ 4095)
      ∧ (Instr.drw 1 2 15).WellFormed ∧ ((15 : Nat) = 0 ∨ (0xFF1 : Word).toNat + 15 - 1 ≤ 4095)
      ∧ Sys2Proof.Safety.spriteCovers wrapSprite 1 2 2 31 62 = true
      ∧ pixelAt (setFb (togglePixel 31 62 clearFb) wrapSprite).fb 31 62 = true
      ∧ pixelAt wrapSprite.fb 31 62 = false := by decide

theorem witness_DrawingTwiceRestoresTheBitmap :
    ∃ t u, (Instr.drw 1 2 2).WellFormed ∧ exec (.drw 1 2 2) wrapSprite = .next t
      ∧ readV t 1 = readV wrapSprite 1 ∧ readV t 2 = readV wrapSprite 2 ∧ exec (.drw 1 2 2) t = .next u :=
  ⟨_, _, by decide, rfl, by decide, by decide, rfl⟩

/-- CallPushesTheReturnAddress, CallThenRetRoundTrip: a full stack, and the last free slot. -/
theorem witness_CallPushesTheReturnAddress :
    ({ wide with sp := 16 }).sp.val = 16 ∧ ({ wide with sp := 15 }).sp.val < 16 := by decide

/-- An empty stack, one entry, and sixteen. -/
theorem witness_RetPopsTheReturnAddress :
    wide.sp.val = 0 ∧ ({ wide with sp := 1 }).sp.val = (0 : Fin 16).val + 1
      ∧ ({ wide with sp := 16 }).sp.val = (15 : Fin 16).val + 1 := by decide

theorem witness_SixteenCallsFitAndTheNextOverflows :
    wide.sp.val = 0 ∧ (List.replicate 16 (0x300 : BitVec 12)).length ≤ 16
      ∧ (List.replicate 17 (0x300 : BitVec 12)).length = 17 := by decide

theorem witness_KeySkipsTestKeyModuloSixteen : (readV (regs 0 0xFF 1 0) 0).toNat % 16 = (15 : Key).val := by decide

/-- X not VF; with X = VF only the flag clause speaks. -/
theorem witness_AddAndSubtractWithFlag : (14 : Reg) ≠ .vf ∧ (0 : Reg) ≠ 14 ∧ (0 : Reg) ≠ .vf := by decide

/-- Both clauses at their boundary: the digits end at 4095, and one byte past it. -/
theorem witness_BcdStoresTheThreeDigits :
    Sys2Proof.Safety.MemoryOk wide ∧ (setIndex 0xFFD wide).index.toNat + 2 ≤ 4095
      ∧ 4095 < (setIndex 0xFFE wide).index.toNat + 2 :=
  ⟨show Memory.wf _ _ by decide, by decide⟩

/-- StoreRegsStoresV0ToVx, LoadRegsLoadsV0ToVx and StoredRegistersLoadBack at the boundary of both clauses. -/
theorem witness_StoreRegsStoresV0ToVx :
    Sys2Proof.Safety.MemoryOk wide ∧ (setIndex 0xFF0 wide).index.toNat + (15 : Reg).val ≤ 4095
      ∧ 4095 < (setIndex 0xFF1 wide).index.toNat + (15 : Reg).val :=
  ⟨show Memory.wf _ _ by decide, by decide⟩

theorem witness_StoredBytesAreFetched :
    Sys2Proof.Safety.MemoryOk (setIndex 0x300 wide) ∧ 1 ≤ (1 : Reg).val
      ∧ ∃ t, exec (.storeRegs 1) (setIndex 0x300 wide) = .next t :=
  ⟨show Memory.wf _ _ by decide, by decide, ⟨_, rfl⟩⟩

theorem witness_RndMasksTheRandomByte : (0xF0 : Byte).getLsbD 3 = false ∧ (4 : Reg) ≠ 3 := by decide

/-- Each clause: no key down; key 15 the lowest down; and the latched key up and down. -/
theorem witness_KeyWaitPollsAsItsStateMachine :
    (wide.kw = .idle ∧ ∀ k, keyDown wide k = false)
      ∧ ((setKw .awaitingPress (setKey 15 true wide)).kw = .awaitingPress
        ∧ keyDown (setKey 15 true wide) 15 = true ∧ ∀ j, j < 15 → keyDown (setKey 15 true wide) j = false)
      ∧ waiting.kw = .awaitingRelease 9 ∧ keyDown waiting 9 = false
      ∧ keyDown (setKey 9 true waiting) 9 = true := by decide

theorem witness_HaltReturnsHaltedAndChangesNothing :
    inExtent (placed 0xFFE 0xFFFF) = true ∧ (placed 0xFFE 0xFFFF).pc.toNat ≤ 4094 ∧ fetchWord (placed 0xFFE 0xFFFF) = 0xFFFF := by
  decide

theorem witness_UnknownWordsFailAndChangeNothing :
    inExtent (placed 0x200 0x5121) = true ∧ (placed 0x200 0x5121).pc.toNat ≤ 4094 ∧ fetchWord (placed 0x200 0x5121) = 0x5121
      ∧ decode 0x5121 = .unknown 0x5121 := by decide

end Sys2Proof.Tests
end

section
/-! SUPPORT. The two inputs a Step holds beside the machine's own state, `rnd` and `pending`: no instruction writes either,
CXNN alone reads `rnd`, and none reads `pending`. Said once, as a commutation of `exec` with any change of the two. -/

namespace Sys2Proof.Machine

/-- The state with its random byte and its pending events changed, and nothing else. -/
def mapInputs (r : Byte → Byte) (g : List Event → List Event) (s : State) : State :=
  { s with rnd := r s.rnd, pending := g s.pending }

/-- A result with its next state changed; the ends that carry no state stay. -/
def mapNext (f : State → State) : Result → Result
  | .next s => .next (f s)
  | .fault e => .fault e
  | .refused q => .refused q

@[simp] theorem mapNext_next (f : State → State) (s : State) : mapNext f (.next s) = .next (f s) := rfl

@[simp] theorem mapNext_fault (f : State → State) (e : Fault) : mapNext f (.fault e) = .fault e := rfl

theorem mapNext_eq_next {f : State → State} {x : Result} {t : State} (h : mapNext f x = .next t) :
    ∃ u, x = .next u ∧ f u = t := by
  cases x with
  | next u => exact ⟨u, rfl, Host.Outcome.next.inj h⟩
  | fault e => cases h
  | refused q => cases h

/-! ### The shared operations read neither input -/

section
variable (r : Byte → Byte) (g : List Event → List Event) (s : State)

theorem skipIf_mapInputs (c : Bool) :
    skipIf c (mapInputs r g s) = mapNext (mapInputs r g) (skipIf c s) := by
  cases c <;> rfl

theorem withAccess_mapInputs (base len : Nat) {k k' : State → Result}
    (hk : k' (mapInputs r g s) = mapNext (mapInputs r g) (k s)) :
    withAccess base len k' (mapInputs r g s) = mapNext (mapInputs r g) (withAccess base len k s) := by
  unfold withAccess
  split
  · exact hk
  · rfl

theorem execRet_mapInputs : execRet (mapInputs r g s) = mapNext (mapInputs r g) (execRet s) := by
  by_cases h : 0 < s.sp.val
  · have h' : 0 < (mapInputs r g s).sp.val := h
    simp only [execRet, pop, h, h', dif_pos]; rfl
  · have h' : ¬ 0 < (mapInputs r g s).sp.val := h
    simp only [execRet, pop, h, h', dif_neg, not_false_eq_true]; rfl

theorem execCall_mapInputs (nnn : BitVec 12) :
    execCall nnn (mapInputs r g s) = mapNext (mapInputs r g) (execCall nnn s) := by
  by_cases h : s.sp.val < 16
  · have h' : (mapInputs r g s).sp.val < 16 := h
    simp only [execCall, push, h, h', dif_pos]; rfl
  · have h' : ¬ (mapInputs r g s).sp.val < 16 := h
    simp only [execCall, push, h, h', dif_neg, not_false_eq_true]; rfl

theorem execDrw_mapInputs (x y : Reg) (n : Nat) :
    execDrw x y n (mapInputs r g s) = mapNext (mapInputs r g) (execDrw x y n s) :=
  withAccess_mapInputs r g s _ _ rfl

theorem execBcd_mapInputs (x : Reg) :
    execBcd x (mapInputs r g s) = mapNext (mapInputs r g) (execBcd x s) :=
  withAccess_mapInputs r g s _ _ rfl

theorem storeRegsAt_mapInputs (base : Nat) (rs : List Reg) :
    storeRegsAt base rs (mapInputs r g s) = mapInputs r g (storeRegsAt base rs s) :=
  List.foldl_hom (mapInputs r g) (fun _ _ => rfl)

theorem loadRegsAt_mapInputs (base : Nat) (rs : List Reg) :
    loadRegsAt base rs (mapInputs r g s) = mapInputs r g (loadRegsAt base rs s) :=
  List.foldl_hom (mapInputs r g) (fun _ _ => rfl)

theorem execStoreRegs_mapInputs (x : Reg) :
    execStoreRegs x (mapInputs r g s) = mapNext (mapInputs r g) (execStoreRegs x s) := by
  refine withAccess_mapInputs r g s _ _ ?_
  rw [storeRegsAt_mapInputs]; rfl

theorem execLoadRegs_mapInputs (x : Reg) :
    execLoadRegs x (mapInputs r g s) = mapNext (mapInputs r g) (execLoadRegs x s) := by
  refine withAccess_mapInputs r g s _ _ ?_
  rw [loadRegsAt_mapInputs]; rfl

theorem pollPress_mapInputs (x : Reg) :
    pollPress x (mapInputs r g s) = mapNext (mapInputs r g) (pollPress x s) := by
  have h : lowestPressed (mapInputs r g s) = lowestPressed s := rfl
  unfold pollPress
  rw [h]
  cases lowestPressed s <;> rfl

theorem pollRelease_mapInputs (k : Key) :
    pollRelease k (mapInputs r g s) = mapNext (mapInputs r g) (pollRelease k s) := by
  have h : keyDown (mapInputs r g s) k = keyDown s k := rfl
  unfold pollRelease
  rw [h]
  cases keyDown s k <;> rfl

theorem execLdVxK_mapInputs (x : Reg) :
    execLdVxK x (mapInputs r g s) = mapNext (mapInputs r g) (execLdVxK x s) := by
  have h : (mapInputs r g s).kw = s.kw := rfl
  unfold execLdVxK
  rw [h]
  cases s.kw with
  | idle => exact pollPress_mapInputs r g s x
  | awaitingPress => exact pollPress_mapInputs r g s x
  | awaitingRelease k => exact pollRelease_mapInputs r g s k

/-- Every instruction commutes with a change of the two inputs, as long as CXNN finds the same random byte. -/
theorem exec_mapInputs (i : Instr) (h : ∀ x nn, i = .rnd x nn → r s.rnd = s.rnd) :
    exec i (mapInputs r g s) = mapNext (mapInputs r g) (exec i s) := by
  cases i with
  | rnd x nn =>
    have hr : (mapInputs r g s).rnd = s.rnd := h x nn rfl
    change execRnd x nn _ = mapNext _ (execRnd x nn s)
    unfold execRnd
    rw [hr]; rfl
  | ret => exact execRet_mapInputs r g s
  | call nnn => exact execCall_mapInputs r g s nnn
  | seImm | sneImm | seReg | sneReg | skp | sknp => exact skipIf_mapInputs r g s _
  | drw x y n => exact execDrw_mapInputs r g s x y n
  | bcd x => exact execBcd_mapInputs r g s x
  | storeRegs x => exact execStoreRegs_mapInputs r g s x
  | loadRegs x => exact execLoadRegs_mapInputs r g s x
  | ldVxK x => exact execLdVxK_mapInputs r g s x
  | cls | jp | jpV0 | ldImm | addImm | mov | or | and | xor | addReg | sub | shr | subn | shl | ldI | addI | ldF
  | ldVxDt | ldDtVx | ldStVx | halt => rfl

end

/-- Settles O31: an instruction other than CXNN commutes with replacing the random byte. -/
theorem randomByteReachesOnlyCXNN : Obligations.RandomByteReachesOnlyCXNN := by
  intro i s q hi
  have h : exec i { s with rnd := q } = mapNext (fun t => { t with rnd := q }) (exec i s) :=
    exec_mapInputs (fun _ => q) id s i (fun x nn e => absurd e (hi x nn))
  exact ⟨fun t ht => by rw [h, ht]; rfl, fun e he => by rw [h, he]; rfl⟩

end Sys2Proof.Machine
end

section
/-! SUPPORT. A scripted run: no event looks at the events still pending behind it (00_scope.md R14; log 18). -/

namespace Sys2Proof.Machine

/-- The state with other events pending. -/
def setPending (es : List Event) (s : State) : State := { s with pending := es }

theorem exec_setPending (i : Instr) (es : List Event) (s : State) :
    exec i (setPending es s) = mapNext (setPending es) (exec i s) :=
  exec_mapInputs id (fun _ => es) s i (fun _ _ _ => rfl)

theorem executeWord_setPending (w : Word) (es : List Event) (s : State) :
    executeWord w (setPending es s) = mapNext (setPending es) (executeWord w s) := by
  cases h : decode w with
  | ok i => rw [executeWord_ok h, executeWord_ok h, exec_setPending]
  | unknown u => rw [executeWord_unknown h, executeWord_unknown h, mapNext_fault]

theorem cycle_setPending (es : List Event) (s : State) :
    cycle (setPending es s) = mapNext (setPending es) (cycle s) := by
  have hx : inExtent (setPending es s) = inExtent s := rfl
  have hp : (setPending es s).pc = s.pc := rfl
  have hw : fetchWord (setPending es s) = fetchWord s := fetchWord_congr rfl rfl rfl
  unfold cycle
  rw [hx, hp, hw, executeWord_setPending]
  split
  · rfl
  · split <;> rfl

theorem perform_setPending (e : Event) (es : List Event) (s : State) :
    perform e (setPending es s) = mapNext (setPending es) (perform e s) := by
  cases e with
  | step r => exact cycle_setPending es (latchRnd r s)
  | tickTimers => rfl
  | setKey k pressed => rfl

/-- Where a step performs a scripted event and answers a next state, so does the event with nothing pending. -/
theorem afterEvent_of_step_next {s t : State} {e : Event} {es : List Event} (hs : s.pending = e :: es)
    (h : step s = .next t) : t.pending = es ∧ afterEvent (setPending [] s) e = setPending [] t := by
  have hstep : mapNext (setPending es) (perform e s) = .next t := by
    rw [← perform_setPending, ← h, step_of_pending hs]; rfl
  obtain ⟨u, hu, rfl⟩ := mapNext_eq_next hstep
  refine ⟨rfl, afterEvent_next ?_⟩
  rw [perform_setPending, hu]; rfl

/-- A run of one step more that answers a next state is a step and the rest of the run. -/
theorem run_succ_next {M : Host.Core} {k : Nat} {s t : M.State} (h : M.run (k + 1) s = .next t) :
    ∃ u, M.step s = .next u ∧ M.run k u = .next t := by
  unfold Host.Core.run at h
  split at h
  next u hu => exact ⟨u, hu, h⟩
  · cases h
  · cases h

/-- Settles O13, by induction on the script. -/
theorem scriptedRunIsTheEventSequence : Obligations.ScriptedRunIsTheEventSequence := by
  intro es
  induction es with
  | nil =>
    intro s t hs h
    change t = setPending [] s
    rw [← hs]
    exact (Host.Outcome.next.inj h).symm
  | cons e es ih =>
    intro s t hs h
    obtain ⟨u, hu, hrest⟩ := run_succ_next h
    obtain ⟨hpend, hafter⟩ := afterEvent_of_step_next hs hu
    change t = afterEvents (afterEvent (setPending [] s) e) es
    rw [hafter]
    exact ih u t hpend hrest

/-- Settles O8: both sides perform the same Step event. -/
theorem stepWithNothingPendingIsAStepEvent : Obligations.StepWithNothingPendingIsAStepEvent := by
  intro s hs
  rw [step_of_nothing_pending hs, step_of_pending rfl, ← hs]

end Sys2Proof.Machine
end

section
/-! SUPPORT. What the shared ends of an instruction, 00EE, 2NNN and FX0A leave when they complete, each said once. -/

namespace Sys2Proof.Machine

variable {s t : State}

theorem skipIf_pc {c : Bool} (h : skipIf c s = .next t) : t.pc = if c then s.pc + 4 else s.pc + 2 := by
  rw [skipIf_eq] at h
  obtain rfl := Host.Outcome.next.inj h
  rfl

/-- A skip whose condition is negated (4XNN, 9XY0, EXA1). -/
theorem skipIf_not_pc {c : Bool} (h : skipIf (!c) s = .next t) : t.pc = if c then s.pc + 2 else s.pc + 4 := by
  rw [skipIf_pc h]
  cases c <;> rfl

theorem execRet_next (h : execRet s = .next t) :
    ∃ hsp : 0 < s.sp.val, t = setPc (s.stack[s.sp.val - 1]'(by omega)) { s with sp := ⟨s.sp.val - 1, by omega⟩ } := by
  obtain ⟨hsp, he⟩ | ⟨_, he⟩ := pop_cases (fun target s => .next (setPc target s)) s
  · exact ⟨hsp, (Host.Outcome.next.inj (he.symm.trans h)).symm⟩
  · cases he.symm.trans h

theorem execCall_next {nnn : BitVec 12} (h : execCall nnn s = .next t) :
    ∃ hsp : s.sp.val < 16, t = setPc (zextNNN nnn)
      { s with stack := s.stack.set s.sp.val (s.pc + 2), sp := ⟨s.sp.val + 1, by omega⟩ } := by
  obtain ⟨hsp, he⟩ | ⟨_, he⟩ := push_cases (s.pc + 2) (fun s => .next (setPc (zextNNN nnn) s)) s
  · exact ⟨hsp, (Host.Outcome.next.inj (he.symm.trans h)).symm⟩
  · cases he.symm.trans h

/-- A poll for a press latches a key in VX or goes on waiting (45_keypad.md R183). -/
theorem pollPress_next {x : Reg} (h : pollPress x s = .next t) :
    (∃ k, t = setKw (.awaitingRelease k) (writeV x (keyByte k) s)) ∨ t = setKw .awaitingPress s := by
  unfold pollPress at h
  cases hl : lowestPressed s with
  | some k => rw [hl] at h; exact .inl ⟨k, (Host.Outcome.next.inj h).symm⟩
  | none => rw [hl] at h; exact .inr (Host.Outcome.next.inj h).symm

/-- FX0A polls for a press while no key is latched, and for the release of the latched key (45_keypad.md R182 to R184). -/
theorem execLdVxK_next {x : Reg} (h : execLdVxK x s = .next t) :
    ((∀ k, s.kw ≠ .awaitingRelease k) ∧
      ((∃ k, t = setKw (.awaitingRelease k) (writeV x (keyByte k) s)) ∨ t = setKw .awaitingPress s)) ∨
    (∃ k, s.kw = .awaitingRelease k ∧
      ((keyDown s k = true ∧ t = s) ∨ (keyDown s k = false ∧ t = setPc (s.pc + 2) (setKw .idle s)))) := by
  unfold execLdVxK at h
  cases hk : s.kw with
  | idle => rw [hk] at h; exact .inl ⟨nofun, pollPress_next h⟩
  | awaitingPress => rw [hk] at h; exact .inl ⟨nofun, pollPress_next h⟩
  | awaitingRelease k =>
    rw [hk] at h
    refine .inr ⟨k, rfl, ?_⟩
    cases hd : keyDown s k with
    | true => simp only [pollRelease, hd, if_true] at h; exact .inl ⟨rfl, (Host.Outcome.next.inj h).symm⟩
    | false =>
      simp only [pollRelease, hd, Bool.false_eq_true, if_false] at h
      exact .inr ⟨rfl, (Host.Outcome.next.inj h).symm⟩

/-! ### Targets and flags -/

theorem toNat_zextNNN (nnn : BitVec 12) : (zextNNN nnn).toNat = nnn.toNat := by
  simp only [zextNNN, BitVec.toNat_setWidth]; omega

/-- The target of BNNN does not wrap: it is at most 4095 + 255 (41_control_flow.md R113). -/
theorem toNat_jumpV0Target (nnn : BitVec 12) (b : Byte) : (jumpV0Target nnn b).toNat = nnn.toNat + b.toNat := by
  have hb : b.zext.toNat = b.toNat := by simp only [Byte.zext, BitVec.toNat_setWidth]; omega
  rw [jumpV0Target, BitVec.toNat_add, toNat_zextNNN, hb]
  omega

theorem flagByte_zero_or_one (c : Bool) : flagByte c = 0 ∨ flagByte c = 1 := by
  cases c
  · exact .inl rfl
  · exact .inr rfl

/-- Where an instruction's last write is a flag to VF, VF holds 0 or 1 (42_alu.md R143). -/
theorem vf_zero_or_one_of_next {c : Bool} (h : next (writeV .vf (flagByte c) s) = .next t) :
    readV t .vf = 0 ∨ readV t .vf = 1 := by
  obtain rfl := Host.Outcome.next.inj h
  rw [readV_congr (setPc_v _ _), readV_writeV_same]
  exact flagByte_zero_or_one c

end Sys2Proof.Machine
end

section
/-! SUPPORT. Frames: what each operation and each instruction leaves unchanged, piece by piece (10_state.md R20). An
operation's frame is stated for any set of allowed pieces that holds the one it writes, so that frames compose. -/

namespace Sys2Proof.Safety

open Sys2Proof.Machine

section
variable {A : Piece → Prop} {s t u : State}

theorem ChangesOnly.refl (s : State) : ChangesOnly A s s := fun p _ => by cases p <;> rfl

theorem ChangesOnly.trans (h : ChangesOnly A s t) (h' : ChangesOnly A t u) : ChangesOnly A s u := fun p hp => by
  have hst := h p hp
  have htu := h' p hp
  cases p <;> exact Eq.trans htu hst

/-! ### The frame of each operation -/

theorem changesOnly_setPc (w : Word) (h : A .pc) : ChangesOnly A s (setPc w s) := fun p hp => by
  cases p with
  | pc => exact absurd h hp
  | _ => rfl

theorem changesOnly_setIndex (w : Word) (h : A .index) : ChangesOnly A s (setIndex w s) := fun p hp => by
  cases p with
  | index => exact absurd h hp
  | _ => rfl

theorem changesOnly_setDt (x : Byte) (h : A .dt) : ChangesOnly A s (setDt x s) := fun p hp => by
  cases p with
  | dt => exact absurd h hp
  | _ => rfl

theorem changesOnly_setSt (x : Byte) (h : A .st) : ChangesOnly A s (setSt x s) := fun p hp => by
  cases p with
  | st => exact absurd h hp
  | _ => rfl

theorem changesOnly_setKw (k : KeyWait) (h : A .kw) : ChangesOnly A s (setKw k s) := fun p hp => by
  cases p with
  | kw => exact absurd h hp
  | _ => rfl

theorem changesOnly_setFb (fb : Vector (BitVec 64) 32) (h : ∀ y x, A (.pixel y x)) : ChangesOnly A s (setFb fb s) :=
  fun p hp => by
    cases p with
    | pixel y x => exact absurd (h y x) hp
    | _ => rfl

theorem changesOnly_writeV (r : Reg) (x : Byte) (h : A (.reg r)) : ChangesOnly A s (writeV r x s) := fun p hp => by
  cases p with
  | reg q => exact readV_writeV_ne s (fun e : q = r => hp (e ▸ h)) x
  | _ => rfl

theorem changesOnly_writeByte (a : Nat) (x : Byte) (h : A (.byte a)) : ChangesOnly A s (writeByte a x s) :=
  fun p hp => by
    cases p with
    | byte b => exact readByte_writeByte_ne s (fun e : b = a => hp (e ▸ h)) x
    | _ => rfl

theorem changesOnly_setSp (n : Fin 17) (h : A .sp) : ChangesOnly A s { s with sp := n } := fun p hp => by
  cases p with
  | sp => exact absurd h hp
  | _ => rfl

theorem changesOnly_setSlot (j : Fin 16) (x : Word) (h : A (.slot j)) :
    ChangesOnly A s { s with stack := s.stack.set j x } := fun p hp => by
  cases p with
  | slot i => exact Vector.getElem_set_ne j.isLt i.isLt (fun e => hp (Fin.ext e ▸ h))
  | _ => rfl

theorem changesOnly_writeResultAndFlag (x : Reg) (a f : Byte) (hx : A (.reg x)) (hf : A (.reg .vf)) :
    ChangesOnly A s (writeResultAndFlag x a f s) :=
  (changesOnly_writeV x a hx).trans (changesOnly_writeV .vf f hf)

theorem changesOnly_storeDigits (base : Nat) (b : Byte) (h : ∀ a, base ≤ a → a ≤ base + 2 → A (.byte a)) :
    ChangesOnly A s (storeDigits base b s) :=
  ((changesOnly_writeByte base _ (h _ (by omega) (by omega))).trans
    (changesOnly_writeByte (base + 1) _ (h _ (by omega) (by omega)))).trans
    (changesOnly_writeByte (base + 2) _ (h _ (by omega) (by omega)))

theorem changesOnly_storeRegsAt (base : Nat) (rs : List Reg) (s : State) (h : ∀ r ∈ rs, A (.byte (base + r.val))) :
    ChangesOnly A s (storeRegsAt base rs s) := by
  induction rs generalizing s with
  | nil => exact .refl s
  | cons r rs ih =>
    exact (changesOnly_writeByte (base + r.val) (readV s r) (h r List.mem_cons_self)).trans
      (ih _ (fun q hq => h q (List.mem_cons_of_mem r hq)))

theorem changesOnly_loadRegsAt (base : Nat) (rs : List Reg) (s : State) (h : ∀ r ∈ rs, A (.reg r)) :
    ChangesOnly A s (loadRegsAt base rs s) := by
  induction rs generalizing s with
  | nil => exact .refl s
  | cons r rs ih =>
    exact (changesOnly_writeV r (readByte s (base + r.val)) (h r List.mem_cons_self)).trans
      (ih _ (fun q hq => h q (List.mem_cons_of_mem r hq)))

theorem ChangesOnly.of_next (h : ChangesOnly A s u) (hpc : A .pc) (hn : next u = .next t) : ChangesOnly A s t := by
  obtain rfl := Host.Outcome.next.inj hn
  exact h.trans (changesOnly_setPc _ hpc)

theorem changesOnly_of_skipIf {c : Bool} (hpc : A .pc) (hn : skipIf c s = .next t) : ChangesOnly A s t := by
  rw [skipIf_eq] at hn
  obtain rfl := Host.Outcome.next.inj hn
  exact changesOnly_setPc _ hpc

end

/-! ### The table of what may be written -/

section
variable {s t : State} {i : Instr}

theorem mayWrite_pc : mayWrite s i .pc := .inl rfl

theorem mayWrite_reg {r : Reg} (h : writesReg i r) : mayWrite s i (.reg r) := .inr (.inl ⟨r, h, rfl⟩)

theorem mayWrite_other {p : Piece} (h : writesOther s i p) : mayWrite s i p := .inr (.inr h)

theorem not_writesOther_reg (r : Reg) : ¬ writesOther s i (.reg r) := by cases i <;> simp [writesOther]

theorem not_writesOther_extHi : ¬ writesOther s i .extHi := by cases i <;> simp [writesOther]

theorem writesOther_sp (h : writesOther s i .sp) : i = .ret ∨ ∃ nnn, i = .call nnn := by
  cases i <;> simp [writesOther] at h ⊢

theorem writesOther_slot {j : Fin 16} (h : writesOther s i (.slot j)) : ∃ nnn, i = .call nnn := by
  cases i <;> simp [writesOther] at h ⊢

theorem writesOther_kw (h : writesOther s i .kw) : ∃ x, i = .ldVxK x := by
  cases i <;> simp [writesOther] at h ⊢

theorem not_mayWrite_reg {r : Reg} (h : ¬ writesReg i r) : ¬ mayWrite s i (.reg r) := by
  rintro (hp | ⟨q, hq, hp⟩ | ho)
  · cases hp
  · cases hp; exact h hq
  · exact not_writesOther_reg r ho

/-- A piece that is neither PC nor a register is written only where the table lists it. -/
theorem not_mayWrite_of_not_writesOther {p : Piece} (hpc : p ≠ .pc) (hr : ∀ r, p ≠ .reg r)
    (h : ¬ writesOther s i p) : ¬ mayWrite s i p := by
  rintro (hp | ⟨r, _, hp⟩ | ho)
  · exact hpc hp
  · exact hr r hp
  · exact h ho

/-! ### The frame of every instruction -/

theorem execCall_changesOnly {nnn : BitVec 12} (h : execCall nnn s = .next t) :
    ChangesOnly (mayWrite s (.call nnn)) s t := by
  obtain ⟨hsp, rfl⟩ := execCall_next h
  have hslot : mayWrite s (.call nnn) (.slot ⟨s.sp.val, hsp⟩) := mayWrite_other (.inr ⟨_, rfl, rfl⟩)
  exact .trans (.trans (changesOnly_setSlot _ _ hslot) (changesOnly_setSp _ (mayWrite_other (.inl rfl))))
    (changesOnly_setPc _ mayWrite_pc)

theorem execLdVxK_changesOnly {x : Reg} (h : execLdVxK x s = .next t) :
    ChangesOnly (mayWrite s (.ldVxK x)) s t := by
  have hkw : mayWrite s (.ldVxK x) .kw := mayWrite_other rfl
  obtain ⟨_, ⟨k, rfl⟩ | rfl⟩ | ⟨k, _, ⟨_, rfl⟩ | ⟨_, rfl⟩⟩ := execLdVxK_next h
  · exact .trans (changesOnly_writeV x _ (mayWrite_reg rfl)) (changesOnly_setKw _ hkw)
  · exact changesOnly_setKw _ hkw
  · exact .refl _
  · exact (changesOnly_setKw _ hkw).trans (changesOnly_setPc _ mayWrite_pc)

theorem exec_changesOnly (h : exec i s = .next t) : ChangesOnly (mayWrite s i) s t := by
  cases i with
  | cls => exact .of_next (changesOnly_setFb _ fun y x => mayWrite_other ⟨y, x, rfl⟩) mayWrite_pc h
  | ret =>
    obtain ⟨hsp, rfl⟩ := execRet_next h
    exact .trans (changesOnly_setSp _ (mayWrite_other rfl)) (changesOnly_setPc _ mayWrite_pc)
  | call nnn => exact execCall_changesOnly h
  | jp | jpV0 =>
    obtain rfl := Host.Outcome.next.inj h
    exact changesOnly_setPc _ mayWrite_pc
  | seImm | sneImm | seReg | sneReg | skp | sknp => exact changesOnly_of_skipIf mayWrite_pc h
  | ldImm | addImm | mov | or | and | xor | rnd | ldVxDt =>
    exact .of_next (changesOnly_writeV _ _ (mayWrite_reg rfl)) mayWrite_pc h
  | addReg | sub | shr | subn | shl =>
    exact .of_next (changesOnly_writeResultAndFlag _ _ _ (mayWrite_reg (.inl rfl)) (mayWrite_reg (.inr rfl)))
      mayWrite_pc h
  | ldI | addI | ldF => exact .of_next (changesOnly_setIndex _ (mayWrite_other rfl)) mayWrite_pc h
  | ldDtVx => exact .of_next (changesOnly_setDt _ (mayWrite_other rfl)) mayWrite_pc h
  | ldStVx => exact .of_next (changesOnly_setSt _ (mayWrite_other rfl)) mayWrite_pc h
  | drw =>
    obtain ⟨_, h⟩ := withAccess_next h
    exact .of_next (.trans (changesOnly_setFb _ fun y x => mayWrite_other ⟨y, x, rfl⟩)
      (changesOnly_writeV _ _ (mayWrite_reg rfl))) mayWrite_pc h
  | bcd =>
    obtain ⟨_, h⟩ := withAccess_next h
    exact .of_next (changesOnly_storeDigits _ _ fun a h1 h2 => mayWrite_other ⟨a, h1, h2, rfl⟩) mayWrite_pc h
  | storeRegs x =>
    obtain ⟨_, h⟩ := withAccess_next h
    have hbyte : ∀ r ∈ regsUpTo x, mayWrite s (.storeRegs x) (.byte (baseAddress s + r.val)) := fun r hr =>
      mayWrite_other (.inr ⟨_, Nat.le_add_right _ _, Nat.add_le_add_left ((mem_regsUpTo x r).1 hr) _, rfl⟩)
    exact .of_next (.trans (changesOnly_storeRegsAt _ _ s hbyte)
      (changesOnly_setIndex _ (mayWrite_other (.inl rfl)))) mayWrite_pc h
  | loadRegs x =>
    obtain ⟨_, h⟩ := withAccess_next h
    exact .of_next (.trans (changesOnly_loadRegsAt _ _ s fun r hr => mayWrite_reg ((mem_regsUpTo x r).1 hr))
      (changesOnly_setIndex _ (mayWrite_other rfl))) mayWrite_pc h
  | ldVxK => exact execLdVxK_changesOnly h
  | halt => cases h

end

/-- Settles O25: the frames of an instruction's operations, composed. -/
theorem eachInstructionChangesOnlyWhatItMayWrite : Obligations.EachInstructionChangesOnlyWhatItMayWrite :=
  fun _ _ _ h => exec_changesOnly h

end Sys2Proof.Safety
end

section
/-! SUPPORT. The invariant of a run (10_state.md R41): what an instruction, a Step, an event and a sequence of events keep.
All but memory's canonical form, the pushed return address and the key-wait condition follow from the frames. -/

namespace Sys2Proof.Safety

open Sys2Proof.Machine

section
variable {s t : State} {i : Instr}

/-- The extent is written by no instruction (10_state.md R35). -/
theorem exec_extHi (h : exec i s = .next t) : t.extHi = s.extHi :=
  exec_changesOnly h .extHi (not_mayWrite_of_not_writesOther nofun nofun not_writesOther_extHi)

/-- KW is written by FX0A alone (10_state.md R33). -/
theorem exec_kw (hi : ∀ x, i ≠ .ldVxK x) (h : exec i s = .next t) : t.kw = s.kw :=
  exec_changesOnly h .kw (not_mayWrite_of_not_writesOther nofun nofun fun hw => by
    obtain ⟨x, hx⟩ := writesOther_kw hw
    exact hi x hx)

theorem exec_memoryOk (hm : MemoryOk s) (h : exec i s = .next t) : MemoryOk t := by
  cases i with
  | bcd =>
    obtain ⟨hr, h⟩ := withAccess_next h
    obtain rfl := Host.Outcome.next.inj h
    exact storeDigits_wf hm (by simp only [Config.memSize]; omega) _
  | storeRegs x =>
    obtain ⟨hr, h⟩ := withAccess_next h
    obtain rfl := Host.Outcome.next.inj h
    refine storeRegsAt_wf _ _ s hm fun r hrx => ?_
    have hle : r.val ≤ x.val := (mem_regsUpTo x r).1 hrx
    simp only [transferCount] at hr
    simp only [Config.memSize]
    omega
  | loadRegs =>
    obtain ⟨_, h⟩ := withAccess_next h
    obtain rfl := Host.Outcome.next.inj h
    unfold MemoryOk
    rw [loadRegsAt_eq]
    exact hm
  | drw =>
    obtain ⟨_, h⟩ := withAccess_next h
    obtain rfl := Host.Outcome.next.inj h
    exact hm
  | ret => obtain ⟨_, rfl⟩ := execRet_next h; exact hm
  | call => obtain ⟨_, rfl⟩ := execCall_next h; exact hm
  | ldVxK => obtain ⟨_, ⟨_, rfl⟩ | rfl⟩ | ⟨_, _, ⟨_, rfl⟩ | ⟨_, rfl⟩⟩ := execLdVxK_next h <;> exact hm
  | seImm | sneImm | seReg | sneReg | skp | sknp =>
    obtain rfl := Host.Outcome.next.inj ((skipIf_eq _ s).symm.trans h)
    exact hm
  | halt => cases h
  | cls | jp | jpV0 | ldImm | addImm | mov | or | and | xor | addReg | sub | shr | subn | shl | ldI | addI | ldF | rnd
  | ldVxDt | ldDtVx | ldStVx =>
    obtain rfl := Host.Outcome.next.inj h
    exact hm

/-- 2NNN pushes PC + 2, which a fetch inside memory keeps at most 4096; no other instruction fills a slot. -/
theorem exec_stackOk (hpc : s.pc.toNat ≤ 4094) (hs : StackOk s) (h : exec i s = .next t) : StackOk t := by
  by_cases hw : writesOther s i .sp
  · obtain rfl | ⟨nnn, rfl⟩ := writesOther_sp hw
    · obtain ⟨hsp, rfl⟩ := execRet_next h
      exact fun j hj => hs j (Nat.lt_of_lt_of_le hj (Nat.sub_le _ _))
    · obtain ⟨hsp, rfl⟩ := execCall_next h
      intro j hj
      have hlive : j.val < s.sp.val + 1 := hj
      by_cases hjs : s.sp.val = j.val
      · have hret : (s.pc + 2).toNat ≤ 4096 := by bv_omega
        simpa [← hjs] using hret
      · have hslot := hs j (by omega)
        simpa [Vector.getElem_set_ne _ _ hjs] using hslot
  · have hsp : t.sp = s.sp :=
      exec_changesOnly h .sp (not_mayWrite_of_not_writesOther nofun nofun hw)
    intro j hj
    have hj' : t.stack[j] = s.stack[j] :=
      exec_changesOnly h (.slot j) (not_mayWrite_of_not_writesOther nofun nofun fun hwj => by
        obtain ⟨nnn, rfl⟩ := writesOther_slot hwj
        exact hw (.inl rfl))
    rw [hj']
    exact hs j (hsp ▸ hj)

/-- An FX0A that waits stays at its PC with the latched key in VX; any other instruction runs only while KW is Idle. -/
theorem exec_keyWaitOk (hx : inExtent s = true) (hpc : s.pc.toNat ≤ 4094) (hd : decode (fetchWord s) = .ok i)
    (hk : KeyWaitOk s) (h : exec i s = .next t) : KeyWaitOk t := by
  by_cases hi : ∃ x, i = .ldVxK x
  · obtain ⟨x, rfl⟩ := hi
    obtain ⟨_, ⟨k, rfl⟩ | rfl⟩ | ⟨k, _, ⟨_, rfl⟩ | ⟨_, rfl⟩⟩ := execLdVxK_next h
    · refine fun _ => ⟨hx, hpc, x, hd, fun q hq => ?_⟩
      obtain rfl := KeyWait.awaitingRelease.inj hq
      exact readV_writeV_same s x _
    · exact fun _ => ⟨hx, hpc, x, hd, nofun⟩
    · exact hk
    · exact fun hne => absurd rfl hne
  · intro hne
    rw [exec_kw (fun x e => hi ⟨x, e⟩) h] at hne
    obtain ⟨_, _, x, hd', _⟩ := hk hne
    exact absurd ⟨x, Decoded.ok.inj (hd.symm.trans hd')⟩ hi

theorem cycle_inv (hs : Inv s) (h : cycle s = .next t) : Inv t := by
  obtain ⟨_, he⟩ | ⟨_, _, _, he⟩ | ⟨hlo, hhi, hpc, he⟩ := cycle_cases s
  · cases he.symm.trans h
  · cases he.symm.trans h
  · rw [he] at h
    cases hd : decode (fetchWord s) with
    | unknown w => rw [executeWord_unknown hd] at h; cases h
    | ok i =>
      rw [executeWord_ok hd] at h
      have hext : ExtentOk t := by unfold ExtentOk; rw [exec_extHi h]; exact hs.extent
      exact ⟨exec_memoryOk hs.memory h, hext, exec_stackOk hpc hs.stack h,
        exec_keyWaitOk ((inExtent_iff s).2 ⟨hlo, hhi⟩) hpc hd hs.keyWait h⟩

/-- The invariant says nothing about the timers, the keys and the model's own inputs. -/
theorem Inv.withInputs (h : Inv s) (dt st : Byte) (key : Vector Bool 16) (rnd : Byte) (pending : List Event)
    (rndDraws : Nat) :
    Inv { s with dt := dt, st := st, key := key, rnd := rnd, pending := pending, rndDraws := rndDraws } :=
  ⟨h.memory, h.extent, h.stack, h.keyWait⟩

theorem perform_inv {e : Event} (hs : Inv s) (h : perform e s = .next t) : Inv t := by
  cases e with
  | step r => exact cycle_inv (hs.withInputs _ _ _ r _ _) h
  | tickTimers => obtain rfl := Host.Outcome.next.inj h; exact hs.withInputs _ _ _ _ _ _
  | setKey k b => obtain rfl := Host.Outcome.next.inj h; exact hs.withInputs _ _ _ _ _ _

theorem afterEvent_inv (e : Event) (hs : Inv s) : Inv (afterEvent s e) := by
  unfold afterEvent
  split
  next t h => exact perform_inv hs h
  · exact hs
  · exact hs

theorem afterEvents_inv (es : List Event) (hs : Inv s) : Inv (afterEvents s es) := by
  induction es generalizing s with
  | nil => exact hs
  | cons e es ih => exact ih (afterEvent_inv e hs)

end

/-- Settles O21: a step performs one event, and every event keeps the invariant. -/
theorem everyStepKeepsTheInvariant : Obligations.EveryStepKeepsTheInvariant := by
  intro s t hs h
  cases hp : s.pending with
  | nil =>
    rw [step_of_nothing_pending hp] at h
    exact perform_inv (hs.withInputs _ _ _ _ _ _) h
  | cons e es =>
    rw [step_of_pending hp] at h
    exact perform_inv (hs.withInputs _ _ _ _ _ _) h

/-- Settles O20: an image that Load accepts ends at or below 4096, the stack is empty and KW is Idle. -/
theorem loadedMachinesMeetTheInvariant : Obligations.LoadedMachinesMeetTheInvariant := by
  intro p image s h
  by_cases hl : image.length ≤ 3584
  · rw [load_next p hl] at h
    obtain rfl := Host.Outcome.next.inj h
    have hfit : 0x200 + image.length ≤ Config.memSize := by simp only [Config.memSize]; omega
    exact ⟨Memory.ofBytes_wf p hfit, ⟨Nat.le_add_right _ _, hfit⟩, fun _ hj => absurd hj (Nat.not_lt_zero _),
      fun hne => absurd rfl hne⟩
  · rw [load_fault p (by omega)] at h
    cases h

/-- Settles O22: the invariant holds once loaded and every event keeps it. -/
theorem everyReachableStateMeetsTheInvariant : Obligations.EveryReachableStateMeetsTheInvariant :=
  fun p image s es h => afterEvents_inv es (loadedMachinesMeetTheInvariant p image s h)

/-- Settles O19: reset is the machine loaded with an empty image. -/
theorem resetMeetsTheInvariant : Obligations.ResetMeetsTheInvariant :=
  loadedMachinesMeetTheInvariant defaultParams [] State.reset rfl

end Sys2Proof.Safety
end

section
/-! SUPPORT. What every instruction does to PC and to VF (10_state.md R23, R25). -/

namespace Sys2Proof.Safety

open Sys2Proof.Machine

section
variable {s t : State} {i : Instr}

theorem execLdVxK_pc {x : Reg} (h : execLdVxK x s = .next t) : pcAfter s t (.ldVxK x) := by
  obtain ⟨hn, hpress⟩ | ⟨k, hk, ⟨hd, rfl⟩ | ⟨hd, rfl⟩⟩ := execLdVxK_next h
  · have hpc : t.pc = s.pc := by obtain ⟨k, rfl⟩ | rfl := hpress <;> rfl
    simpa [pcAfter, hn] using hpc
  · simp [pcAfter, hk, hd]
  · simp [pcAfter, hk, hd]

theorem exec_pcAfter (h : exec i s = .next t) : pcAfter s t i := by
  cases i with
  | seImm | seReg => simpa [pcAfter] using skipIf_pc h
  | sneImm | sneReg => simpa [pcAfter] using skipIf_pc h
  | skp => exact skipIf_pc h
  | sknp => exact skipIf_not_pc h
  | jp nnn => obtain rfl := Host.Outcome.next.inj h; exact toNat_zextNNN nnn
  | jpV0 nnn => obtain rfl := Host.Outcome.next.inj h; exact toNat_jumpV0Target nnn _
  | call nnn => obtain ⟨_, rfl⟩ := execCall_next h; exact toNat_zextNNN nnn
  | ret =>
    obtain ⟨hsp, rfl⟩ := execRet_next h
    exact ⟨⟨s.sp.val - 1, by omega⟩, Nat.sub_add_cancel hsp, rfl⟩
  | ldVxK => exact execLdVxK_pc h
  | halt => cases h
  | drw | bcd =>
    obtain ⟨_, h⟩ := withAccess_next h
    obtain rfl := Host.Outcome.next.inj h
    rfl
  | storeRegs =>
    obtain ⟨_, h⟩ := withAccess_next h
    obtain rfl := Host.Outcome.next.inj h
    rw [storeRegsAt_eq]; rfl
  | loadRegs =>
    obtain ⟨_, h⟩ := withAccess_next h
    obtain rfl := Host.Outcome.next.inj h
    rw [loadRegsAt_eq]; rfl
  | cls | ldImm | addImm | mov | or | and | xor | addReg | sub | shr | subn | shl | ldI | addI | ldF | rnd
  | ldVxDt | ldDtVx | ldStVx =>
    obtain rfl := Host.Outcome.next.inj h
    rfl

theorem exec_flag (hi : writesFlag i = true) (h : exec i s = .next t) : readV t .vf = 0 ∨ readV t .vf = 1 := by
  cases i with
  | addReg | sub | shr | subn | shl => exact vf_zero_or_one_of_next h
  | drw => exact vf_zero_or_one_of_next (withAccess_next h).2
  | _ => cases hi

end

/-- Settles O26: PC instruction by instruction; an event that ends without Continue leaves the whole state (R205). -/
theorem pcAfterEveryInstruction : Obligations.PcAfterEveryInstruction :=
  ⟨fun _ _ _ h => exec_pcAfter h, fun _ _ _ h => by rw [afterEvent_fault h]⟩

/-- Settles O27: the flag is written last, and the frame keeps VF where it is no destination. -/
theorem onlySixInstructionsWriteTheFlag : Obligations.OnlySixInstructionsWriteTheFlag :=
  fun _ _ _ h => ⟨fun hi => exec_flag hi h, fun _ hw => exec_changesOnly h (.reg .vf) (not_mayWrite_reg hw)⟩

end Sys2Proof.Safety
end

section
/-! SUPPORT. ST is an input of no instruction (10_state.md R31): `exec` commutes with replacing it, and FX18 forgets it. -/

namespace Sys2Proof.Machine

section
variable (a : Byte) (s : State)

theorem withAccess_mapNext (f : State → State) (base len : Nat) {k k' : State → Result}
    (hk : k' (f s) = mapNext f (k s)) : withAccess base len k' (f s) = mapNext f (withAccess base len k s) := by
  unfold withAccess
  split
  · exact hk
  · rfl

theorem skipIf_setSt (c : Bool) : skipIf c (setSt a s) = mapNext (setSt a) (skipIf c s) := by
  cases c <;> rfl

theorem execRet_setSt : execRet (setSt a s) = mapNext (setSt a) (execRet s) := by
  unfold execRet pop
  rw [apply_dite (mapNext (setSt a))]
  rfl

theorem execCall_setSt (nnn : BitVec 12) : execCall nnn (setSt a s) = mapNext (setSt a) (execCall nnn s) := by
  unfold execCall push
  rw [apply_dite (mapNext (setSt a))]
  rfl

theorem execDrw_setSt (x y : Reg) (n : Nat) : execDrw x y n (setSt a s) = mapNext (setSt a) (execDrw x y n s) :=
  withAccess_mapNext s (setSt a) _ _ rfl

theorem execBcd_setSt (x : Reg) : execBcd x (setSt a s) = mapNext (setSt a) (execBcd x s) :=
  withAccess_mapNext s (setSt a) _ _ rfl

theorem storeRegsAt_setSt (base : Nat) (rs : List Reg) :
    storeRegsAt base rs (setSt a s) = setSt a (storeRegsAt base rs s) :=
  List.foldl_hom (setSt a) (fun _ _ => rfl)

theorem loadRegsAt_setSt (base : Nat) (rs : List Reg) :
    loadRegsAt base rs (setSt a s) = setSt a (loadRegsAt base rs s) :=
  List.foldl_hom (setSt a) (fun _ _ => rfl)

theorem execStoreRegs_setSt (x : Reg) : execStoreRegs x (setSt a s) = mapNext (setSt a) (execStoreRegs x s) := by
  refine withAccess_mapNext s (setSt a) _ _ ?_
  rw [storeRegsAt_setSt]; rfl

theorem execLoadRegs_setSt (x : Reg) : execLoadRegs x (setSt a s) = mapNext (setSt a) (execLoadRegs x s) := by
  refine withAccess_mapNext s (setSt a) _ _ ?_
  rw [loadRegsAt_setSt]; rfl

theorem pollPress_setSt (x : Reg) : pollPress x (setSt a s) = mapNext (setSt a) (pollPress x s) := by
  have hl : lowestPressed (setSt a s) = lowestPressed s := rfl
  unfold pollPress
  rw [hl]
  cases lowestPressed s <;> rfl

theorem execLdVxK_setSt (x : Reg) : execLdVxK x (setSt a s) = mapNext (setSt a) (execLdVxK x s) := by
  unfold execLdVxK
  rw [setSt_kw]
  cases s.kw with
  | idle => exact pollPress_setSt a s x
  | awaitingPress => exact pollPress_setSt a s x
  | awaitingRelease k =>
    simp only [pollRelease, apply_ite (mapNext (setSt a))]
    rfl

theorem exec_setSt (i : Instr) (hi : ∀ x, i ≠ .ldStVx x) :
    exec i (setSt a s) = mapNext (setSt a) (exec i s) := by
  cases i with
  | ret => exact execRet_setSt a s
  | call nnn => exact execCall_setSt a s nnn
  | seImm | sneImm | seReg | sneReg | skp | sknp => exact skipIf_setSt a s _
  | drw x y n => exact execDrw_setSt a s x y n
  | bcd x => exact execBcd_setSt a s x
  | storeRegs x => exact execStoreRegs_setSt a s x
  | loadRegs x => exact execLoadRegs_setSt a s x
  | ldVxK x => exact execLdVxK_setSt a s x
  | ldStVx x => exact absurd rfl (hi x)
  | cls | jp | jpV0 | ldImm | addImm | mov | or | and | xor | addReg | sub | shr | subn | shl | ldI | addI | ldF | rnd
  | ldVxDt | ldDtVx | halt => rfl

end

/-- Settles O30: FX18 overwrites ST, every other instruction carries it along. -/
theorem soundTimerReachesNothing : Obligations.SoundTimerReachesNothing := by
  intro i s a
  by_cases hi : ∃ x, i = .ldStVx x
  · obtain ⟨x, rfl⟩ := hi
    exact ⟨fun t ht => ⟨t.st, ht⟩, fun e he => by cases he⟩
  · have h : exec i { s with st := a } = mapNext (setSt a) (exec i s) := exec_setSt a s i fun x e => hi ⟨x, e⟩
    exact ⟨fun t ht => ⟨a, by rw [h, ht]; rfl⟩, fun e he => by rw [h, he]; rfl⟩

end Sys2Proof.Machine
end

section
/-! SUPPORT. The canonical form fixes the cells: a cell is listed exactly when its address reads as its byte and that is
not what the address reads as unlisted. -/

namespace Sys2Proof.Machine

section
variable {p : Params} {m q : Memory}

theorem Memory.lookup_eq_some_iff (hm : m.Pairwise (fun c d => c.1 < d.1)) (a : Nat) (x : Byte) :
    Memory.lookup m a = some x ↔ (a, x) ∈ m := by
  induction m with
  | nil => simp
  | cons c m ih =>
    obtain ⟨k, b⟩ := c
    obtain ⟨hk, hm'⟩ := List.pairwise_cons.1 hm
    by_cases hka : k = a
    · subst hka
      have hn : (k, x) ∉ m := fun hx => Nat.lt_irrefl k (hk (k, x) hx)
      simp [Memory.lookup, hn, eq_comm]
    · simp [Memory.lookup, hka, ih hm', Ne.symm hka]

theorem Memory.mem_iff_read (hm : Memory.wf p m) (a : Nat) (x : Byte) :
    (a, x) ∈ m ↔ Memory.read p m a = x ∧ x ≠ resetByte p a := by
  obtain ⟨hsorted, hcells⟩ := hm
  have hlisted := Memory.lookup_eq_some_iff hsorted a
  constructor
  · intro hx
    exact ⟨by rw [Memory.read, (hlisted x).2 hx, Option.getD_some], (hcells _ hx).2⟩
  · rintro ⟨rfl, hne⟩
    cases hl : Memory.lookup m a with
    | none => simp [Memory.read, hl] at hne
    | some b => simpa [Memory.read, hl] using (hlisted b).1 hl

/-- Two lists of cells with rising addresses and the same members are the same list. -/
theorem Memory.eq_of_mem_iff (hm : m.Pairwise (fun c d => c.1 < d.1)) (hq : q.Pairwise (fun c d => c.1 < d.1))
    (h : ∀ c, c ∈ m ↔ c ∈ q) : m = q :=
  have : Std.Asymm (fun c d : Host.Cell => c.1 < d.1) := ⟨fun _ _ => Nat.lt_asymm⟩
  List.Pairwise.eq_of_mem_iff hm hq h

end

/-- Settles O24: both memories list the same cells, and rising addresses fix their order. -/
theorem equalReadsMakeEqualMemories : Obligations.EqualReadsMakeEqualMemories :=
  fun _ _ _ hm hq h => Memory.eq_of_mem_iff hm.1 hq.1 fun ⟨a, x⟩ => by
    rw [Memory.mem_iff_read hm, Memory.mem_iff_read hq, h a]

end Sys2Proof.Machine
end

section
/-! SUPPORT. What FX55 leaves in memory, and the value of the word that two bytes make. -/

namespace Sys2Proof.Machine

/-- The first byte is the high one, so the two never meet in a bit (20_memory.md R52, decision D1). -/
theorem toNat_wordOfBytes (b0 b1 : Byte) : (wordOfBytes b0 b1).toNat = b0.toNat * 256 + b1.toNat := by
  have hadd : 2 ^ 8 * b0.toNat + b1.toNat = 2 ^ 8 * b0.toNat ||| b1.toNat :=
    Nat.two_pow_add_eq_or_of_lt b1.isLt b0.toNat
  have h0 : (b0.setWidth 16 <<< 8).toNat = 2 ^ 8 * b0.toNat := by
    simp only [BitVec.toNat_shiftLeft, BitVec.toNat_setWidth, Nat.shiftLeft_eq]
    omega
  have h1 : (b1.setWidth 16).toNat = b1.toNat := by
    simp only [BitVec.toNat_setWidth]
    omega
  rw [wordOfBytes, BitVec.toNat_or, h0, h1, ← hadd]
  omega

/-- An FX55 that completes was in range, and each of V0 to VX stands at its address afterwards (R154). -/
theorem readByte_of_execStoreRegs {s t : State} {x r : Reg} (hm : Memory.wf s.params s.mem)
    (h : execStoreRegs x s = .next t) (hr : r ≤ x) : readByte t (baseAddress s + r.val) = readV s r := by
  obtain ⟨hrange, h⟩ := withAccess_next h
  obtain rfl := Host.Outcome.next.inj h
  refine readByte_storeRegsAt _ _ s hm (fun q hq => ?_) (regsUpTo_nodup x) r ((mem_regsUpTo x r).2 hr)
  have hqx : q.val ≤ x.val := (mem_regsUpTo x q).1 hq
  simp only [transferCount] at hrange
  simp only [Config.memSize]
  omega

/-- Settles O52: the word at the old I is made of the bytes that FX55 left at I and I + 1, which are V0 and V1. -/
theorem storedBytesAreFetched : Obligations.StoredBytesAreFetched := by
  intro s t x hm hx h
  have h0 : readByte t s.index.toNat = readV s 0 := readByte_of_execStoreRegs (r := 0) hm h (Fin.zero_le x)
  have h1 : readByte t (s.index.toNat + 1) = readV s 1 := readByte_of_execStoreRegs (r := 1) hm h hx
  rw [← h0, ← h1]
  exact toNat_wordOfBytes _ _

end Sys2Proof.Machine
end

section
/-! SUPPORT. The fields of a word (30_encoding.md R71) and the formats made of them (R72): a format's fields are the operands
it was made from, and a word is the format of its own fields. -/

namespace Sys2Proof

/-! ### The fields of a format -/

theorem toFin_of_eq {b g : BitVec 4} (h : b = g) : b.toFin = ⟨g.toNat, g.isLt⟩ := by
  rw [h]; rfl

theorem toFin_of_eq_ofNat {b : BitVec 4} {x : Fin 16} (h : b = BitVec.ofNat 4 x) : b.toFin = x := by
  rw [h]; simp

section

variable (g n : BitVec 4) (nnn : BitVec 12) (nn : Byte) (x y : Reg)

@[simp] theorem fieldG_formatNNN : fieldG (formatNNN g nnn) = ⟨g.toNat, g.isLt⟩ :=
  toFin_of_eq (by ext i hi; interval_cases i <;> simp [formatNNN])

@[simp] theorem fieldNNN_formatNNN : fieldNNN (formatNNN g nnn) = nnn := by
  ext i hi; interval_cases i <;> simp [fieldNNN, formatNNN]

@[simp] theorem fieldG_formatXNN : fieldG (formatXNN g x nn) = ⟨g.toNat, g.isLt⟩ :=
  toFin_of_eq (by ext i hi; interval_cases i <;> simp [formatXNN])

@[simp] theorem fieldX_formatXNN : fieldX (formatXNN g x nn) = x :=
  toFin_of_eq_ofNat (by ext i hi; interval_cases i <;> simp [formatXNN])

@[simp] theorem fieldNN_formatXNN : fieldNN (formatXNN g x nn) = nn := by
  ext i hi; interval_cases i <;> simp [fieldNN, formatXNN]

@[simp] theorem fieldG_formatXYN : fieldG (formatXYN g x y n) = ⟨g.toNat, g.isLt⟩ :=
  toFin_of_eq (by ext i hi; interval_cases i <;> simp [formatXYN])

@[simp] theorem fieldX_formatXYN : fieldX (formatXYN g x y n) = x :=
  toFin_of_eq_ofNat (by ext i hi; interval_cases i <;> simp [formatXYN])

@[simp] theorem fieldY_formatXYN : fieldY (formatXYN g x y n) = y :=
  toFin_of_eq_ofNat (by ext i hi; interval_cases i <;> simp [formatXYN])

@[simp] theorem fieldN_formatXYN : fieldN (formatXYN g x y n) = ⟨n.toNat, n.isLt⟩ :=
  toFin_of_eq (by ext i hi; interval_cases i <;> simp [formatXYN])

end

/-! ### The format of a word's fields -/

theorem ofNat_fieldX (w : Word) : BitVec.ofNat 4 (fieldX w) = w.extractLsb' 8 4 := BitVec.ofNat_toNat ..

theorem ofNat_fieldY (w : Word) : BitVec.ofNat 4 (fieldY w) = w.extractLsb' 4 4 := BitVec.ofNat_toNat ..

theorem ofNat_fieldN (w : Word) : BitVec.ofNat 4 (fieldN w) = w.extractLsb' 0 4 := BitVec.ofNat_toNat ..

section

variable {w : Word} {g n : BitVec 4}

theorem formatNNN_fields (hG : fieldG w = g.toFin) : formatNNN g (fieldNNN w) = w := by
  obtain rfl : w.extractLsb' 12 4 = g := BitVec.toFin_inj.1 hG
  ext i hi; interval_cases i <;> simp [formatNNN, fieldNNN]

theorem formatXNN_fields (hG : fieldG w = g.toFin) : formatXNN g (fieldX w) (fieldNN w) = w := by
  obtain rfl : w.extractLsb' 12 4 = g := BitVec.toFin_inj.1 hG
  rw [formatXNN, ofNat_fieldX]
  ext i hi; interval_cases i <;> simp [fieldNN]

theorem formatXYN_fields (hG : fieldG w = g.toFin) (hN : fieldN w = n.toFin) :
    formatXYN g (fieldX w) (fieldY w) n = w := by
  obtain rfl : w.extractLsb' 12 4 = g := BitVec.toFin_inj.1 hG
  obtain rfl : w.extractLsb' 0 4 = n := BitVec.toFin_inj.1 hN
  rw [formatXYN, ofNat_fieldX, ofNat_fieldY]
  ext i hi; interval_cases i <;> simp

/-! ### The fields as numbers -/

theorem fieldG_eq_iff (k : Fin 16) : fieldG w = k ↔ w.toNat / 4096 = k := by
  have h : w.toNat / 4096 % 16 = w.toNat / 4096 := by omega
  simp [fieldG, Fin.ext_iff, Nat.shiftRight_eq_div_pow, h]

theorem fieldN_eq_iff (k : Fin 16) : fieldN w = k ↔ w.toNat % 16 = k := by
  simp [fieldN, Fin.ext_iff]

theorem toNat_fieldNN : (fieldNN w).toNat = w.toNat % 256 := by
  simp [fieldNN]

end

end Sys2Proof
end

section
/-! SUPPORT. Decoding an encoded instruction. The sentinel FFFF is tested before the group (30_encoding.md R75); outside group F
the primary nibble tells a word from it, and in group F the byte NN does. -/

namespace Sys2Proof

variable {w : Word}

theorem ne_halt_of_fieldG (h : fieldG w ≠ 15) : w ≠ 0xFFFF#16 := by
  rintro rfl; exact h (by decide)

theorem ne_halt_of_fieldNN (h : fieldNN w ≠ 0xFF) : w ≠ 0xFFFF#16 := by
  rintro rfl; exact h (by decide)

theorem drw_wellFormed_iff (x y : Reg) (n : Nat) : (Instr.drw x y n).WellFormed ↔ n < 16 := by
  simp [Instr.WellFormed, Instr.wellFormed]

/-- Settles O2: the fields of an instruction's word choose its own arm of the decoder and give its operands back. -/
theorem decodeOfEncodeIsTheInstruction : Obligations.DecodeOfEncodeIsTheInstruction := by
  intro i hi
  cases i with
  | cls | ret | halt => decide
  | jp | call | ldI | jpV0 | seImm | sneImm | ldImm | addImm | rnd | seReg | sneReg =>
    simp [encode, decode, ne_halt_of_fieldG]
  | drw x y n =>
    have hn : n < 16 := (drw_wellFormed_iff x y n).1 hi
    simp [encode, decode, ne_halt_of_fieldG, Nat.mod_eq_of_lt hn]
  | mov | or | and | xor | addReg | sub | shr | subn | shl =>
    simp [encode, decode, decodeGroup8, ne_halt_of_fieldG]
  | skp | sknp => simp [encode, decode, decodeGroupE, ne_halt_of_fieldG]
  | ldVxDt | ldVxK | ldDtVx | ldStVx | addI | ldF | bcd | storeRegs | loadRegs =>
    simp [encode, decode, decodeGroupF, ne_halt_of_fieldNN]

end Sys2Proof
end

section
/-! SUPPORT. What the decoder can answer, said once: a well-formed instruction whose word is the decoded one, or Unknown with
the whole word, and the latter exactly for the words of 30_encoding.md R79. -/

namespace Sys2Proof

variable {w : Word}

/-- The sub-codes N of group 8 (R77, rows 10 to 18). -/
def subCodes8 : List (Fin 16) := [0x0, 0x1, 0x2, 0x3, 0x4, 0x5, 0x6, 0x7, 0xE]

/-- The sub-codes NN of group E (R77, rows 24 and 25). -/
def subCodesE : List Byte := [0x9E, 0xA1]

/-- The sub-codes NN of group F (R77, rows 26 to 34). -/
def subCodesF : List Byte := [0x07, 0x0A, 0x15, 0x18, 0x1E, 0x29, 0x33, 0x55, 0x65]

/-- The words R79 lists as Unknown, by their fields. -/
def NoInstruction (w : Word) : Prop :=
  (fieldG w = 0 ∧ w ≠ 0x00E0 ∧ w ≠ 0x00EE)
  ∨ (fieldG w = 5 ∧ fieldN w ≠ 0)
  ∨ (fieldG w = 8 ∧ fieldN w ∉ subCodes8)
  ∨ (fieldG w = 9 ∧ fieldN w ≠ 0)
  ∨ (fieldG w = 14 ∧ fieldNN w ∉ subCodesE)
  ∨ (fieldG w = 15 ∧ fieldNN w ∉ subCodesF ∧ w ≠ 0xFFFF)

/-- The right answers for `w` of a decoder that calls it Unknown exactly when `p` holds. -/
def Answers (w : Word) (p : Prop) : Decoded → Prop
  | .ok i => encode i = w ∧ i.WellFormed ∧ ¬ p
  | .unknown u => u = w ∧ p

theorem Answers.congr {p q : Prop} {d : Decoded} (h : Answers w p d) (hqp : q ↔ p) : Answers w q d := by
  rwa [propext hqp]

/-- A word of group G whose sub-code is N is the format-XYN word of its fields. -/
theorem answers_of_subCodeN {i : Instr} {g n : BitVec 4} {codes : List (Fin 16)} (hG : fieldG w = g.toFin)
    (hN : fieldN w = n.toFin) (he : encode i = formatXYN g (fieldX w) (fieldY w) n) (hi : i.WellFormed)
    (hn : n.toFin ∈ codes) : Answers w (fieldN w ∉ codes) (.ok i) :=
  ⟨he.trans (formatXYN_fields hG hN), hi, not_not.2 (hN ▸ hn)⟩

/-- A word of group G whose sub-code is NN is the format-XNN word of its fields. -/
theorem answers_of_subCodeNN {i : Instr} {g : BitVec 4} {nn : Byte} {codes : List Byte} (hG : fieldG w = g.toFin)
    (hNN : fieldNN w = nn) (he : encode i = formatXNN g (fieldX w) nn) (hi : i.WellFormed) (hn : nn ∈ codes) :
    Answers w (fieldNN w ∉ codes) (.ok i) :=
  ⟨by rw [he, ← hNN, formatXNN_fields hG], hi, not_not.2 (hNN ▸ hn)⟩

theorem decodeGroup0_answers : Answers w (w ≠ 0x00E0 ∧ w ≠ 0x00EE) (decodeGroup0 w) := by
  unfold decodeGroup0
  split_ifs with hcls hret
  · exact ⟨hcls.symm, rfl, fun h => h.1 hcls⟩
  · exact ⟨hret.symm, rfl, fun h => h.2 hret⟩
  · exact ⟨rfl, hcls, hret⟩

theorem decodeGroup8_answers (hG : fieldG w = 8) : Answers w (fieldN w ∉ subCodes8) (decodeGroup8 w) := by
  unfold decodeGroup8
  split
  case h_10 => exact ⟨rfl, by simp_all [subCodes8]⟩
  all_goals exact answers_of_subCodeN hG ‹_› rfl rfl (by decide)

theorem decodeGroupE_answers (hG : fieldG w = 14) : Answers w (fieldNN w ∉ subCodesE) (decodeGroupE w) := by
  unfold decodeGroupE
  split_ifs
  case neg => exact ⟨rfl, by simp_all [subCodesE]⟩
  all_goals exact answers_of_subCodeNN hG ‹_› rfl rfl (by decide)

theorem decodeGroupF_answers (hG : fieldG w = 15) : Answers w (fieldNN w ∉ subCodesF) (decodeGroupF w) := by
  unfold decodeGroupF
  split_ifs
  case neg => exact ⟨rfl, by simp_all [subCodesF]⟩
  all_goals exact answers_of_subCodeNN hG ‹_› rfl rfl (by decide)

/-- The arms of the decoder, by format; `h_k` is group k - 1. -/
theorem decode_answers (w : Word) : Answers w (NoInstruction w) (decode w) := by
  by_cases hw : w = 0xFFFF
  · subst hw; exact ⟨rfl, rfl, by unfold NoInstruction; decide⟩
  unfold decode
  rw [if_neg hw]
  split
  case h_1 hG => exact decodeGroup0_answers.congr (by simp [NoInstruction, hG])
  case h_2 hG | h_3 hG | h_11 hG | h_12 hG => exact ⟨formatNNN_fields hG, rfl, by simp [NoInstruction, hG]⟩
  case h_4 hG | h_5 hG | h_7 hG | h_8 hG | h_13 hG => exact ⟨formatXNN_fields hG, rfl, by simp [NoInstruction, hG]⟩
  case h_6 hG | h_10 hG =>
    split_ifs with hN
    · exact ⟨formatXYN_fields hG hN, rfl, by simp [NoInstruction, hG, hN]⟩
    · exact ⟨rfl, by simp [NoInstruction, hG, hN]⟩
  case h_9 hG => exact (decodeGroup8_answers hG).congr (by simp [NoInstruction, hG])
  case h_14 hG =>
    refine ⟨?_, (drw_wellFormed_iff ..).2 (fieldN w).isLt, by simp [NoInstruction, hG]⟩
    rw [encode, ofNat_fieldN]
    exact formatXYN_fields hG rfl
  case h_15 hG => exact (decodeGroupE_answers hG).congr (by simp [NoInstruction, hG])
  case h_16 =>
    have hG : fieldG w = 15 := by grind
    exact (decodeGroupF_answers hG).congr (by simp [NoInstruction, hG, show w ≠ 0xFFFF#16 from hw])

theorem answers_of_decode_ok {i : Instr} (h : decode w = .ok i) : encode i = w ∧ i.WellFormed ∧ ¬ NoInstruction w := by
  have ha := decode_answers w
  rwa [h] at ha

theorem answers_of_decode_unknown {u : Word} (h : decode w = .unknown u) : u = w ∧ NoInstruction w := by
  have ha := decode_answers w
  rwa [h] at ha

theorem decode_unknown_iff : (∃ u, decode w = .unknown u) ↔ NoInstruction w := by
  cases h : decode w with
  | ok i => exact iff_of_false nofun (answers_of_decode_ok h).2.2
  | unknown u => exact iff_of_true ⟨u, rfl⟩ (answers_of_decode_unknown h).2

/-- Settles O3. -/
theorem encodeOfDecodeIsTheWord : Obligations.EncodeOfDecodeIsTheWord := by
  intro w i h
  obtain ⟨he, hi, _⟩ := answers_of_decode_ok h
  exact ⟨he, hi⟩

/-- Settles O6: the list of R79 in numbers; for group 8 it names the nibbles that are no sub-code. -/
theorem unknownWordsAreTheListedOnes : Obligations.UnknownWordsAreTheListedOnes := by
  refine fun w => ⟨decode_unknown_iff.trans ?_, fun u h => (answers_of_decode_unknown h).1⟩
  have h8 : ∀ n < 16, n ∈ [8, 9, 10, 11, 12, 13, 15] ↔ n ∉ [0, 1, 2, 3, 4, 5, 6, 7, 14] := by decide
  rw [h8 _ (Nat.mod_lt _ (by decide))]
  simp [NoInstruction, subCodes8, subCodesE, subCodesF, fieldG_eq_iff, fieldN_eq_iff, toNat_fieldNN, BitVec.toNat_eq]

end Sys2Proof
end

section
/-! SUPPORT. The opcode map of 30_encoding.md R77: the rows are disjoint, the word of an instruction lies in the instruction's
own row, and a covered word has the fields that the row's mask fixes, so that it is none of the Unknown words of R79. -/

namespace Sys2Proof.Laws.EncodingInRow

theorem encode_in_row : ∀ i : Instr, Statement i
  | .cls => cls
  | .ret => ret
  | .jp nnn => jp nnn
  | .call nnn => call nnn
  | .seImm x nn => seImm x nn
  | .sneImm x nn => sneImm x nn
  | .seReg x y => seReg x y
  | .ldImm x nn => ldImm x nn
  | .addImm x nn => addImm x nn
  | .mov x y => mov x y
  | .or x y => or x y
  | .and x y => and x y
  | .xor x y => xor x y
  | .addReg x y => addReg x y
  | .sub x y => sub x y
  | .shr x y => shr x y
  | .subn x y => subn x y
  | .shl x y => shl x y
  | .sneReg x y => sneReg x y
  | .ldI nnn => ldI nnn
  | .jpV0 nnn => jpV0 nnn
  | .rnd x nn => rnd x nn
  | .drw x y n => drw x y n
  | .skp x => skp x
  | .sknp x => sknp x
  | .ldVxDt x => ldVxDt x
  | .ldVxK x => ldVxK x
  | .ldDtVx x => ldDtVx x
  | .ldStVx x => ldStVx x
  | .addI x => addI x
  | .ldF x => ldF x
  | .bcd x => bcd x
  | .storeRegs x => storeRegs x
  | .loadRegs x => loadRegs x
  | .halt => halt

end Sys2Proof.Laws.EncodingInRow

namespace Sys2Proof

theorem OpcodeRow.covers_iff (r : OpcodeRow) (w : Word) : r.covers w = true ↔ w &&& r.mask = r.value := by
  simp [OpcodeRow.covers]

section

variable {w : Word} {r q : OpcodeRow}

/-! ### Disjoint rows -/

/-- Two rows whose values agree under both masks are one row. -/
theorem opcodeRows_disjoint :
    ∀ r ∈ opcodeRows, ∀ q ∈ opcodeRows, r.value &&& q.mask = q.value &&& r.mask → r = q := by
  decide

theorem values_agree_of_covers (hr : r.covers w = true) (hq : q.covers w = true) :
    r.value &&& q.mask = q.value &&& r.mask := by
  rw [OpcodeRow.covers_iff] at hr hq
  rw [← hr, ← hq, BitVec.and_assoc, BitVec.and_assoc, BitVec.and_comm q.mask]

theorem row_unique (hr : r ∈ opcodeRows) (hq : q ∈ opcodeRows) (hrw : r.covers w = true) (hqw : q.covers w = true) :
    r = q :=
  opcodeRows_disjoint r hr q hq (values_agree_of_covers hrw hqw)

/-! ### The fields of a covered word -/

/-- A covered word has the row's bits wherever the mask is all ones. -/
theorem extractLsb'_of_covers {k n : Nat} (hc : r.covers w = true) (hm : r.mask.extractLsb' k n = BitVec.allOnes n) :
    w.extractLsb' k n = r.value.extractLsb' k n := by
  rw [OpcodeRow.covers_iff] at hc
  rw [← hc, BitVec.extractLsb'_and, hm, BitVec.and_allOnes]

/-- Every row fixes the primary nibble. -/
theorem fieldG_of_covers (hr : r ∈ opcodeRows) (hc : r.covers w = true) : fieldG w = fieldG r.value :=
  have hm : ∀ r ∈ opcodeRows, r.mask.extractLsb' 12 4 = BitVec.allOnes 4 := by decide
  congrArg BitVec.toFin (extractLsb'_of_covers hc (hm r hr))

/-- The row's mask fixes N, bits 3-0. -/
abbrev OpcodeRow.FixesN (r : OpcodeRow) : Prop := r.mask.extractLsb' 0 4 = BitVec.allOnes 4

/-- The row's mask fixes NN, bits 7-0. -/
abbrev OpcodeRow.FixesNN (r : OpcodeRow) : Prop := r.mask.extractLsb' 0 8 = BitVec.allOnes 8

/-- The row is one word. -/
abbrev OpcodeRow.FixesWord (r : OpcodeRow) : Prop := r.mask = BitVec.allOnes 16

theorem fieldN_of_covers (hc : r.covers w = true) (hm : r.FixesN) : fieldN w = fieldN r.value :=
  congrArg BitVec.toFin (extractLsb'_of_covers hc hm)

theorem fieldNN_of_covers (hc : r.covers w = true) (hm : r.FixesNN) : fieldNN w = fieldNN r.value :=
  extractLsb'_of_covers hc hm

theorem eq_value_of_covers (hc : r.covers w = true) (hm : r.FixesWord) : w = r.value := by
  rw [OpcodeRow.covers_iff] at hc
  rw [← hc, hm, BitVec.and_allOnes]

/-! ### The rows of the groups that hold Unknown words -/

theorem rows_of_group0 :
    ∀ r ∈ opcodeRows, fieldG r.value = 0 → r.FixesWord ∧ (r.value = 0x00E0 ∨ r.value = 0x00EE) := by
  decide

theorem rows_of_groups5And9 :
    ∀ r ∈ opcodeRows, fieldG r.value = 5 ∨ fieldG r.value = 9 → r.FixesN ∧ fieldN r.value = 0 := by
  decide

theorem rows_of_group8 : ∀ r ∈ opcodeRows, fieldG r.value = 8 → r.FixesN ∧ fieldN r.value ∈ subCodes8 := by
  decide

theorem rows_of_groupE : ∀ r ∈ opcodeRows, fieldG r.value = 14 → r.FixesNN ∧ fieldNN r.value ∈ subCodesE := by
  decide

theorem rows_of_groupF :
    ∀ r ∈ opcodeRows, fieldG r.value = 15 →
      (r.FixesNN ∧ fieldNN r.value ∈ subCodesF) ∨ (r.FixesWord ∧ r.value = 0xFFFF) := by
  decide

theorem not_noInstruction_of_covers (hr : r ∈ opcodeRows) (hc : r.covers w = true) : ¬ NoInstruction w := by
  unfold NoInstruction
  rw [fieldG_of_covers hr hc]
  rintro (⟨hG, hcls, hret⟩ | ⟨hG, hN⟩ | ⟨hG, hN⟩ | ⟨hG, hN⟩ | ⟨hG, hNN⟩ | ⟨hG, hNN, hhalt⟩)
  · obtain ⟨hm, hv⟩ := rows_of_group0 r hr hG
    rw [← eq_value_of_covers hc hm] at hv
    exact hv.elim hcls hret
  · obtain ⟨hm, hv⟩ := rows_of_groups5And9 r hr (.inl hG)
    exact hN ((fieldN_of_covers hc hm).trans hv)
  · obtain ⟨hm, hv⟩ := rows_of_group8 r hr hG
    exact hN (fieldN_of_covers hc hm ▸ hv)
  · obtain ⟨hm, hv⟩ := rows_of_groups5And9 r hr (.inr hG)
    exact hN ((fieldN_of_covers hc hm).trans hv)
  · obtain ⟨hm, hv⟩ := rows_of_groupE r hr hG
    exact hNN (fieldNN_of_covers hc hm ▸ hv)
  · obtain ⟨hm, hv⟩ | ⟨hm, hv⟩ := rows_of_groupF r hr hG
    · exact hNN (fieldNN_of_covers hc hm ▸ hv)
    · exact hhalt ((eq_value_of_covers hc hm).trans hv)

/-! ### The row of a decoded word -/

theorem exists_row_of_decode_ok {i : Instr} (h : decode w = .ok i) :
    ∃ r ∈ opcodeRows, r.number = i.rowNumber ∧ r.covers w = true := by
  obtain ⟨rfl, _, _⟩ := answers_of_decode_ok h
  exact Laws.EncodingInRow.encode_in_row i

theorem decode_of_covers (hr : r ∈ opcodeRows) (hc : r.covers w = true) :
    ∃ i, decode w = .ok i ∧ i.rowNumber = r.number := by
  cases h : decode w with
  | ok i =>
    obtain ⟨q, hq, hn, hqc⟩ := exists_row_of_decode_ok h
    obtain rfl := row_unique hr hq hc hqc
    exact ⟨i, rfl, hn.symm⟩
  | unknown u => exact absurd (answers_of_decode_unknown h).2 (not_noInstruction_of_covers hr hc)

end

/-- Settles O5: a word in two rows makes their values agree under both masks. -/
theorem noWordLiesInTwoRows : Obligations.NoWordLiesInTwoRows :=
  fun _ _ hr _ hq hrw hqw => row_unique hr hq hrw hqw

/-- Settles O4: a decoded word is the word of its instruction, which lies in that instruction's row; a covered word is not
Unknown, and its row is that one because rows are disjoint. -/
theorem decodeFollowsTheOpcodeMap : Obligations.DecodeFollowsTheOpcodeMap := by
  refine fun w => ⟨fun i => exists_row_of_decode_ok, fun r => decode_of_covers, fun hno => ?_⟩
  cases h : decode w with
  | ok i =>
    obtain ⟨r, hr, _, hc⟩ := exists_row_of_decode_ok h
    exact absurd hc (Bool.eq_false_iff.1 (hno r hr))
  | unknown u => rw [(answers_of_decode_unknown h).1]

end Sys2Proof
end

section
/-! SUPPORT. The decoder at work: nine words written out, and the decoder in a Step. -/

namespace Sys2Proof.Machine

/-- Settles O1. -/
theorem writtenOutWordsDecode : Obligations.WrittenOutWordsDecode := by
  unfold Obligations.WrittenOutWordsDecode
  decide

/-- Settles O7: a pending Step is one cycle, and `w` is the word that the cycle fetches. -/
theorem stepRunsTheDecodedInstruction : Obligations.StepRunsTheDecodedInstruction := by
  intro s r es hs
  have hstep : step s = cycle { s with rnd := r, pending := es } := step_of_pending hs
  rw [hstep]
  obtain ⟨hout, he⟩ | ⟨hlo, hhi, htop, he⟩ | ⟨hlo, hhi, hpc, he⟩ := cycle_cases { s with rnd := r, pending := es }
  · exact ⟨fun _ => he, fun hlo hhi => absurd ⟨hlo, hhi⟩ hout, fun hlo hhi => absurd ⟨hlo, hhi⟩ hout⟩
  · dsimp only at hlo hhi htop
    exact ⟨fun hout => by omega, fun _ _ _ => he, fun _ _ hpc => by omega⟩
  · dsimp only at hlo hhi hpc
    refine ⟨fun hout => by omega, fun _ _ htop => by omega, fun _ _ _ w hw => ?_⟩
    obtain rfl : fetchWord s = w := BitVec.eq_of_toNat_eq ((toNat_wordOfBytes _ _).trans hw.symm)
    exact ⟨fun i hd => he.trans (executeWord_ok hd _), fun hd => he.trans (executeWord_unknown hd _)⟩

end Sys2Proof.Machine
end

section
/-! SUPPORT. A sprite as a list of pixels: those its 1 bits land on, no pixel twice (40_display.md R104). Drawing DXYN is
toggling that list, so each listed pixel flips once and a collision is a listed pixel that was set. -/

namespace Sys2Proof.Machine

/-! ### Toggling a list of pixels -/

section
variable (ps : List (Fin 32 × Fin 64)) (cv : Canvas)

/-- A canvas after a 1 bit at each pixel of a list. -/
def drawPixels : Canvas := ps.foldl (fun cv p => drawPixel p.1 p.2 true cv) cv

theorem pixelAt_drawPixels (hps : ps.Nodup) (y : Fin 32) (x : Fin 64) :
    pixelAt (drawPixels ps cv).1 y x = (pixelAt cv.1 y x ^^ decide ((y, x) ∈ ps)) := by
  induction ps generalizing cv with
  | nil => simp [drawPixels]
  | cons p ps ih =>
    obtain ⟨hp, hps⟩ := List.nodup_cons.1 hps
    change pixelAt (drawPixels ps (drawPixel p.1 p.2 true cv)).1 y x = _
    rw [ih _ hps, pixelAt_drawPixel]
    by_cases h : (y, x) = p
    · subst h; simp [hp]
    · have : ¬ (y = p.1 ∧ x = p.2) := fun e => h (Prod.ext e.1 e.2)
      simp [h, this]

/-- No pixel of the list is toggled before its own turn, so a collision is seen on the canvas as it was. -/
theorem hit_drawPixels (hps : ps.Nodup) :
    (drawPixels ps cv).2 = true ↔ cv.2 = true ∨ ∃ y x, (y, x) ∈ ps ∧ pixelAt cv.1 y x = true := by
  induction ps generalizing cv with
  | nil => simp [drawPixels]
  | cons p ps ih =>
    obtain ⟨hp, hps⟩ := List.nodup_cons.1 hps
    have hlater : ∀ y x, (y, x) ∈ ps → pixelAt (drawPixel p.1 p.2 true cv).1 y x = pixelAt cv.1 y x := by
      intro y x hm
      have : ¬ (y = p.1 ∧ x = p.2) := by rintro ⟨rfl, rfl⟩; exact hp hm
      simp [pixelAt_drawPixel, this]
    change (drawPixels ps (drawPixel p.1 p.2 true cv)).2 = true ↔ _
    rw [ih _ hps, hit_drawPixel]
    constructor
    · rintro (h | ⟨y, x, hm, h⟩)
      · obtain h | h := by simpa using h
        · exact .inl h
        · exact .inr ⟨p.1, p.2, by simp, h⟩
      · exact .inr ⟨y, x, by simp [hm], hlater y x hm ▸ h⟩
    · rintro (h | ⟨y, x, hm, h⟩)
      · exact .inl (by simp [h])
      · obtain rfl | hm := List.mem_cons.1 hm
        · exact .inl (by simp [h])
        · exact .inr ⟨y, x, hm, (hlater y x hm).trans h⟩

end

/-! ### The pixels of a sprite -/

/-- The pixels that the 1 bits of a sprite row land on, from column `x0` of row `y`. -/
def rowPixels (x0 : Nat) (y : Fin 32) (row : Byte) : List (Fin 32 × Fin 64) :=
  (spriteColumns.filter (spriteBit row)).map fun c => (y, wrapColumn (x0 + c))

/-- The pixels that the 1 bits of a sprite land on, from column `x0` of row `y0` down. -/
def spritePixels (x0 : Nat) : Nat → List Byte → List (Fin 32 × Fin 64)
  | _, [] => []
  | y0, row :: rows => rowPixels x0 (wrapRow y0) row ++ spritePixels x0 (y0 + 1) rows

section
variable (x0 : Nat)

theorem drawRow_eq (y : Fin 32) (row : Byte) (cv : Canvas) :
    drawRow x0 y row cv = drawPixels (rowPixels x0 y row) cv := by
  simp [drawRow, drawPixels, rowPixels, List.foldl_map, List.foldl_filter, drawPixel]

theorem drawRows_eq (y0 : Nat) (rows : List Byte) (cv : Canvas) :
    drawRows x0 y0 rows cv = drawPixels (spritePixels x0 y0 rows) cv := by
  induction rows generalizing y0 cv with
  | nil => rfl
  | cons row rows ih =>
    rw [drawRows, ih, drawRow_eq]
    exact List.foldl_append.symm

theorem mem_spriteColumns (c : Nat) : c ∈ spriteColumns ↔ c < 8 := by
  simp [spriteColumns]; omega

theorem mem_rowPixels {y : Fin 32} {row : Byte} {p : Fin 32 × Fin 64} :
    p ∈ rowPixels x0 y row ↔ p.1 = y ∧ ∃ c < 8, spriteBit row c = true ∧ p.2 = wrapColumn (x0 + c) := by
  simp only [rowPixels, List.mem_map, List.mem_filter, mem_spriteColumns]
  constructor
  · rintro ⟨c, ⟨hc, hb⟩, rfl⟩
    exact ⟨rfl, c, hc, hb, rfl⟩
  · rintro ⟨rfl, c, hc, hb, h⟩
    exact ⟨c, ⟨hc, hb⟩, Prod.ext rfl h.symm⟩

theorem mem_spritePixels {y0 : Nat} {rows : List Byte} {p : Fin 32 × Fin 64} :
    p ∈ spritePixels x0 y0 rows ↔
      ∃ r, ∃ h : r < rows.length, p ∈ rowPixels x0 (wrapRow (y0 + r)) rows[r] := by
  induction rows generalizing y0 with
  | nil => simp [spritePixels]
  | cons row rows ih =>
    rw [spritePixels, List.mem_append, ih]
    constructor
    · rintro (h | ⟨r, hr, h⟩)
      · exact ⟨0, by simp, h⟩
      · exact ⟨r + 1, by simpa using hr, by simpa [Nat.add_assoc, Nat.add_comm 1] using h⟩
    · rintro ⟨r, hr, h⟩
      cases r with
      | zero => exact .inl h
      | succ r => exact .inr ⟨r, by simpa using hr, by simpa [Nat.add_assoc, Nat.add_comm 1] using h⟩

/-- Eight columns do not wrap onto themselves in 64. -/
theorem rowPixels_nodup (y : Fin 32) (row : Byte) : (rowPixels x0 y row).Nodup := by
  refine List.Nodup.map_on (fun c hc d hd e => ?_) (List.Nodup.filter _ (by decide))
  have hc := (mem_spriteColumns c).1 (List.mem_of_mem_filter hc)
  have hd := (mem_spriteColumns d).1 (List.mem_of_mem_filter hd)
  have e : (x0 + c) % 64 = (x0 + d) % 64 := congrArg (fun p => p.2.val) e
  omega

/-- Rows that do not exceed the height of the bitmap do not wrap onto themselves. -/
theorem spritePixels_nodup (y0 : Nat) (rows : List Byte) (hn : rows.length ≤ 32) : (spritePixels x0 y0 rows).Nodup := by
  induction rows generalizing y0 with
  | nil => exact List.nodup_nil
  | cons row rows ih =>
    rw [List.length_cons] at hn
    refine List.nodup_append'.2 ⟨rowPixels_nodup x0 _ row, ih _ (by omega), fun p hp hq => ?_⟩
    obtain ⟨r, hr, hq⟩ := (mem_spritePixels x0).1 hq
    have e : wrapRow y0 = wrapRow (y0 + 1 + r) := ((mem_rowPixels x0).1 hp).1.symm.trans ((mem_rowPixels x0).1 hq).1
    have e : y0 % 32 = (y0 + 1 + r) % 32 := congrArg Fin.val e
    omega

end

end Sys2Proof.Machine
end

section
/-! SUPPORT. The display instructions: what DXYN draws is what the sprite covers (40_display.md R100 to R105). -/

namespace Sys2Proof.Safety

open Sys2Proof.Machine

/-- Two bitmaps with the same pixels are the same. -/
theorem fb_ext {a b : Vector (BitVec 64) 32} (h : ∀ y x, pixelAt a y x = pixelAt b y x) : a = b :=
  Vector.ext fun y hy => BitVec.eq_of_getLsbD_eq fun x hx => h ⟨y, hy⟩ ⟨x, hx⟩

section
variable (s : State) (x y : Reg) (n : Nat)

/-- The pixels that DXYN toggles in this state. -/
def drwPixels : List (Fin 32 × Fin 64) :=
  spritePixels (readV s x).toNat (readV s y).toNat (spriteRows s (baseAddress s) n)

/-- A pixel is covered if a row of the sprite puts a 1 bit on it. -/
theorem spriteCovers_iff (py : Fin 32) (px : Fin 64) :
    spriteCovers s x y n py px = true ↔ ∃ r < n, (py, px) ∈ rowPixels (readV s x).toNat
      (wrapRow ((readV s y).toNat + r)) (readByte s (baseAddress s + r)) := by
  simp only [spriteCovers, List.any_eq_true, List.mem_range, Bool.and_eq_true, beq_iff_eq, mem_rowPixels, Fin.ext_iff]
  constructor
  · rintro ⟨r, hr, c, hc, ⟨hy, hx⟩, hb⟩
    exact ⟨r, hr, hy, c, hc, hb, hx⟩
  · rintro ⟨r, hr, hy, c, hc, hb, hx⟩
    exact ⟨r, hr, c, hc, ⟨hy, hx⟩, hb⟩

theorem mem_drwPixels (py : Fin 32) (px : Fin 64) :
    (py, px) ∈ drwPixels s x y n ↔ spriteCovers s x y n py px = true := by
  rw [drwPixels, mem_spritePixels, spriteCovers_iff]
  simp [spriteRows]

/-- R104: with fewer than 16 rows no pixel is met twice. -/
theorem drwPixels_nodup (hn : n < 16) : (drwPixels s x y n).Nodup :=
  spritePixels_nodup _ _ _ (by simp [spriteRows]; omega)

/-- The bitmap and the collision of DXYN in this state. -/
def drwCanvas : Canvas := drawPixels (drwPixels s x y n) (s.fb, false)

/-- The state after a DXYN that completes. -/
def afterDrw : State :=
  setPc (s.pc + 2) (writeV .vf (collisionFlag (drwCanvas s x y n).2) (setFb (drwCanvas s x y n).1 s))

/-- DXYN completes exactly if its rows are in range (R101, R58). -/
theorem exec_drw_eq_next_iff (t : State) :
    exec (.drw x y n) s = .next t ↔ (n = 0 ∨ s.index.toNat + n - 1 ≤ 4095) ∧ t = afterDrw s x y n := by
  have e : exec (.drw x y n) s = withAccess (baseAddress s) n (fun s => .next (afterDrw s x y n)) s := by
    unfold afterDrw drwCanvas drwPixels
    simp only [← drawRows_eq]
    rfl
  rw [e]
  constructor
  · intro h
    obtain ⟨hr, h⟩ := withAccess_next h
    exact ⟨hr, (Host.Outcome.next.inj h).symm⟩
  · rintro ⟨hr, rfl⟩
    simp [withAccess, (inRange_iff (baseAddress s) n).2 hr]

theorem pixelAt_afterDrw (hn : n < 16) (py : Fin 32) (px : Fin 64) :
    pixelAt (afterDrw s x y n).fb py px = (pixelAt s.fb py px ^^ spriteCovers s x y n py px) := by
  refine (pixelAt_drawPixels _ _ (drwPixels_nodup s x y n hn) py px).trans ?_
  simp [mem_drwPixels]

theorem drwCanvas_hit (hn : n < 16) :
    (drwCanvas s x y n).2 = true ↔ ∃ py px, spriteCovers s x y n py px = true ∧ pixelAt s.fb py px = true := by
  simp [drwCanvas, hit_drawPixels _ _ (drwPixels_nodup s x y n hn), mem_drwPixels]

theorem readV_afterDrw (r : Reg) :
    readV (afterDrw s x y n) r = if r = .vf then collisionFlag (drwCanvas s x y n).2 else readV s r :=
  readV_writeV _ .vf r _

theorem vf_afterDrw_eq_one_iff (hn : n < 16) :
    readV (afterDrw s x y n) .vf = 1 ↔ ∃ py px, spriteCovers s x y n py px = true ∧ pixelAt s.fb py px = true := by
  rw [← drwCanvas_hit s x y n hn, readV_afterDrw, if_pos rfl]
  cases (drwCanvas s x y n).2 <;> decide

end

/-- What a sprite covers depends on I, VX, VY and memory alone; of these DXYN can write VX or VY only, when it is VF. -/
theorem spriteCovers_afterDrw {s : State} {x y : Reg} {n : Nat} (hx : readV (afterDrw s x y n) x = readV s x)
    (hy : readV (afterDrw s x y n) y = readV s y) : spriteCovers (afterDrw s x y n) x y n = spriteCovers s x y n := by
  unfold spriteCovers
  rw [hx, hy]
  rfl

/-- Settles O32. -/
theorem clsClearsEveryPixel : Obligations.ClsClearsEveryPixel :=
  fun s => ⟨setPc (s.pc + 2) (setFb clearFb s), rfl, pixelAt_clearFb, rfl⟩

/-- Settles O33: DXYN toggles the list of covered pixels, each listed once. -/
theorem drwFlipsExactlyTheCoveredPixels : Obligations.DrwFlipsExactlyTheCoveredPixels := by
  intro s x y n hwf hrange
  have hn : n < 16 := (drw_wellFormed_iff x y n).1 hwf
  have hexec : exec (.drw x y n) s = .next (afterDrw s x y n) := (exec_drw_eq_next_iff s x y n _).2 ⟨hrange, rfl⟩
  have hvf := vf_afterDrw_eq_one_iff s x y n hn
  refine ⟨_, hexec, pixelAt_afterDrw s x y n hn, hvf.2, fun hclear => ?_, fun r hr => ?_, rfl⟩
  · refine (exec_flag rfl hexec).resolve_right fun h1 => ?_
    obtain ⟨py, px, hc, hp⟩ := hvf.1 h1
    exact Bool.false_ne_true ((hclear py px hc).symm.trans hp)
  · rw [readV_afterDrw, if_neg hr]

/-- Settles O34: both draws cover the same pixels, so a pixel flips twice or never, and a pixel that the second draw meets
set is one that the first draw set. -/
theorem drawingTwiceRestoresTheBitmap : Obligations.DrawingTwiceRestoresTheBitmap := by
  intro s t u x y n hwf hst hx hy htu
  have hn : n < 16 := (drw_wellFormed_iff x y n).1 hwf
  obtain ⟨_, rfl⟩ := (exec_drw_eq_next_iff s x y n t).1 hst
  obtain ⟨_, rfl⟩ := (exec_drw_eq_next_iff _ x y n u).1 htu
  have hcov := spriteCovers_afterDrw hx hy
  have hpix := pixelAt_afterDrw s x y n hn
  constructor
  · refine fb_ext fun py px => ?_
    rw [pixelAt_afterDrw _ x y n hn, hcov, hpix, Bool.xor_assoc, Bool.xor_self, Bool.xor_false]
  · rw [vf_afterDrw_eq_one_iff _ x y n hn, hcov]
    refine exists_congr fun py => exists_congr fun px => ?_
    rw [hpix]
    cases spriteCovers s x y n py px <;> cases pixelAt s.fb py px <;> decide

end Sys2Proof.Safety
end

section
/-! SUPPORT. Control transfer: what 2NNN and 00EE do to the return stack, one by one and in turn, and the targets of jumps
and skips (41_control_flow.md R110 to R117). -/

namespace Sys2Proof.Machine

section
variable {s : State} {j : Fin 16}

/-- A call with slot `j` the next free one (R112, decision D13). -/
theorem exec_call_of_free (nnn : BitVec 12) (h : s.sp.val = j.val) :
    exec (.call nnn) s = .next (setPc (zextNNN nnn) { s with stack := s.stack.set j (s.pc + 2), sp := j.succ }) := by
  obtain ⟨_, he⟩ | ⟨hfull, _⟩ := push_cases (s.pc + 2) (fun s => .next (setPc (zextNNN nnn) s)) s
  · simp only [h] at he
    exact he
  · omega

theorem exec_call_sp (nnn : BitVec 12) (h : s.sp.val < 16) :
    ∃ t, exec (.call nnn) s = .next t ∧ t.sp.val = s.sp.val + 1 :=
  ⟨_, exec_call_of_free (j := ⟨s.sp.val, h⟩) nnn rfl, rfl⟩

theorem exec_call_of_full (nnn : BitVec 12) (h : s.sp.val = 16) : exec (.call nnn) s = .fault .stackOverflow := by
  obtain ⟨hfree, _⟩ | ⟨_, he⟩ := push_cases (s.pc + 2) (fun s => .next (setPc (zextNNN nnn) s)) s
  · omega
  · exact he

/-- A return with slot `j` the newest live one (R110, decision D13). -/
theorem exec_ret_of_live (h : s.sp.val = j.val + 1) :
    exec .ret s = .next (setPc s.stack[j] { s with sp := j.castSucc }) := by
  obtain ⟨_, he⟩ | ⟨hempty, _⟩ := pop_cases (fun target s => .next (setPc target s)) s
  · simp only [h, Nat.add_sub_cancel] at he
    exact he
  · omega

theorem exec_ret_of_empty (h : s.sp.val = 0) : exec .ret s = .fault .stackUnderflow := by
  obtain ⟨hlive, _⟩ | ⟨_, he⟩ := pop_cases (fun target s => .next (setPc target s)) s
  · omega
  · exact he

end

theorem skipIf_decide_eq (P : Prop) [Decidable P] (s : State) :
    skipIf P s = .next (setPc (if P then s.pc + 4 else s.pc + 2) s) := by
  simp only [skipIf_eq, decide_eq_true_eq]

/-- A skip whose condition is the negation of `P` (4XNN, 9XY0). -/
theorem skipIf_decide_not_eq (P : Prop) [Decidable P] (s : State) :
    skipIf (¬ P) s = .next (setPc (if P then s.pc + 2 else s.pc + 4) s) := by
  rw [skipIf_decide_eq, ite_not]

end Sys2Proof.Machine

namespace Sys2Proof.Safety

open Sys2Proof.Machine

/-! ### Calls in turn -/

theorem callInTurn_cons_of_next {s t : State} {nnn : BitVec 12} (rest : List (BitVec 12))
    (h : exec (.call nnn) s = .next t) : callInTurn (nnn :: rest) s = callInTurn rest t := by
  simp only [callInTurn, h]

theorem callInTurn_cons_of_fault {s : State} {nnn : BitVec 12} {e : Fault} (rest : List (BitVec 12))
    (h : exec (.call nnn) s = .fault e) : callInTurn (nnn :: rest) s = .fault e := by
  simp only [callInTurn, h]

theorem callInTurn_of_fit (targets : List (BitVec 12)) (s : State) (h : s.sp.val + targets.length ≤ 16) :
    ∃ t, callInTurn targets s = .next t ∧ t.sp.val = s.sp.val + targets.length := by
  induction targets generalizing s with
  | nil => exact ⟨s, rfl, rfl⟩
  | cons nnn rest ih =>
    rw [List.length_cons] at h ⊢
    obtain ⟨t, hcall, ht⟩ := exec_call_sp (s := s) nnn (by omega)
    obtain ⟨u, hrest, hu⟩ := ih t (by omega)
    exact ⟨u, (callInTurn_cons_of_next rest hcall).trans hrest, by omega⟩

/-- The calls that fit succeed; the next one meets a full stack and ends the run. -/
theorem callInTurn_of_too_many (targets : List (BitVec 12)) (s : State) (h : 16 < s.sp.val + targets.length) :
    callInTurn targets s = .fault .stackOverflow := by
  induction targets generalizing s with
  | nil => exact absurd s.sp.isLt (Nat.not_lt.2 h)
  | cons nnn rest ih =>
    rw [List.length_cons] at h
    by_cases hfull : s.sp.val = 16
    · exact callInTurn_cons_of_fault rest (exec_call_of_full nnn hfull)
    · obtain ⟨t, hcall, ht⟩ := exec_call_sp (s := s) nnn (by omega)
      exact (callInTurn_cons_of_next rest hcall).trans (ih t (by omega))

/-! ### The obligations -/

/-- Settles O38: the return pops the slot that the call filled. -/
theorem callThenRetRoundTrip : Obligations.CallThenRetRoundTrip := by
  intro s nnn h
  have hcall := exec_call_of_free (j := ⟨s.sp.val, h⟩) nnn rfl
  exact ⟨_, _, hcall, exec_ret_of_live rfl, Vector.getElem_set_self _, rfl⟩

/-- Settles O39: SP counts the calls, from whatever it was. -/
theorem sixteenCallsFitAndTheNextOverflows : Obligations.SixteenCallsFitAndTheNextOverflows := by
  intro s targets h
  refine ⟨fun hfit => ?_, fun hlen => callInTurn_of_too_many targets s (by omega)⟩
  simpa only [h, Nat.zero_add] using callInTurn_of_fit targets s (by omega)

/-- Settles O35: neither target wraps in 16 bits. -/
theorem jumpsSetPcToTheirTarget : Obligations.JumpsSetPcToTheirTarget :=
  fun s nnn => ⟨⟨setPc (zextNNN nnn) s, rfl, toNat_zextNNN nnn, rfl⟩,
    ⟨setPc (jumpV0Target nnn (readV s 0)) s, rfl, toNat_jumpV0Target nnn _, rfl⟩⟩

/-- Settles O36: the slot at the old SP is the one slot set. -/
theorem callPushesTheReturnAddress : Obligations.CallPushesTheReturnAddress := by
  refine fun s nnn => ⟨exec_call_of_full nnn, fun h => ?_⟩
  have hcall := exec_call_of_free (j := ⟨s.sp.val, h⟩) nnn rfl
  refine ⟨_, hcall, fun j => ?_, rfl, toNat_zextNNN nnn, rfl⟩
  exact (Vector.getElem_set h j.isLt).trans (if_congr eq_comm rfl rfl)

/-- Settles O37: a live slot is read, none is written. -/
theorem retPopsTheReturnAddress : Obligations.RetPopsTheReturnAddress :=
  fun _ => ⟨exec_ret_of_empty, fun _ h => ⟨_, exec_ret_of_live h, rfl, rfl, rfl⟩⟩

/-- Settles O40: all four are one conditional skip, two with the condition negated. -/
theorem registerSkipsMoveOnlyPc : Obligations.RegisterSkipsMoveOnlyPc :=
  fun s _ _ _ => ⟨skipIf_decide_eq _ s, skipIf_decide_not_eq _ s, skipIf_decide_eq _ s, skipIf_decide_not_eq _ s⟩

end Sys2Proof.Safety
end

section
/-! SUPPORT. The register load and ALU instructions: one destination written, or a result and then a flag
(42_alu.md R130 to R140, R143). -/

namespace Sys2Proof.Machine

/-! ### The flags in numbers (42_alu.md R142) -/

theorem carryFlag_eq (a b : Byte) : carryFlag a b = if a.toNat + b.toNat > 255 then 1 else 0 := by
  simp only [carryFlag, flagByte, decide_eq_true_eq]

theorem noBorrowFlag_eq (a b : Byte) : noBorrowFlag a b = if a.toNat < b.toNat then 0 else 1 := by
  by_cases h : a.toNat < b.toNat <;> simp [noBorrowFlag, flagByte, h]

theorem toNat_flagByte (c : Bool) : (flagByte c).toNat = c.toNat := by cases c <;> rfl

theorem toNat_lowBitFlag (b : Byte) : (lowBitFlag b).toNat = b.toNat % 2 := by
  rw [lowBitFlag, toNat_flagByte, BitVec.getLsbD, Nat.toNat_testBit, Nat.pow_zero, Nat.div_one]

/-- A byte is below 256, so nothing stands above bit 7. -/
theorem toNat_highBitFlag (b : Byte) : (highBitFlag b).toNat = b.toNat / 128 := by
  rw [highBitFlag, toNat_flagByte, BitVec.getLsbD, Nat.toNat_testBit]
  have := b.isLt
  omega

/-- The truncated difference, written with its borrow in front. -/
theorem toNat_sub_byte (a b : Byte) : (a - b).toNat = (a.toNat + 256 - b.toNat) % 256 := by
  rw [BitVec.toNat_sub]
  have := b.isLt
  omega

/-! ### One destination -/

theorem next_writeV (x : Reg) (a : Byte) (s : State) :
    next (writeV x a s) = .next { s with v := s.v.set x a, pc := s.pc + 2 } := rfl

end Sys2Proof.Machine

namespace Sys2Proof.Safety

open Sys2Proof.Machine

/-! ### A result and a flag -/

/-- An instruction that ends with a result and a flag: `P` is what is known of the flag, `n` the result's number. With
X = 15 the flag is what VF holds (R143, decision D4). -/
theorem exists_next_writeResultAndFlag (P : Byte → Prop) {x : Reg} {a f : Byte} {n : Nat} {s : State}
    (ha : a.toNat = n) (hf : P f) :
    ∃ t, next (writeResultAndFlag x a f s) = .next t ∧ (x ≠ .vf → (readV t x).toNat = n) ∧ P (readV t .vf)
      ∧ (∀ r, r ≠ x → r ≠ .vf → readV t r = readV s r) ∧ t.pc = s.pc + 2 ∧ OnlyVAndPc s t := by
  have hread : ∀ r, readV (setPc (s.pc + 2) (writeResultAndFlag x a f s)) r =
      if r = .vf then f else if r = x then a else readV s r := fun r => readV_writeResultAndFlag x r a f s
  refine ⟨setPc (s.pc + 2) (writeResultAndFlag x a f s), rfl, fun hx => ?_, ?_, fun r hrx hrf => ?_, rfl, rfl⟩
  · rwa [hread, if_neg hx, if_pos rfl]
  · rwa [hread, if_pos rfl]
  · rw [hread, if_neg hrf, if_neg hrx]

/-! ### The obligations -/

/-- Settles O42: all five write one register, and both operands are read from the state before. -/
theorem loadsAndLogicWriteTheirDestination : Obligations.LoadsAndLogicWriteTheirDestination :=
  fun s x _ _ => ⟨next_writeV x _ s, next_writeV x _ s, next_writeV x _ s, next_writeV x _ s, next_writeV x _ s⟩

/-- Settles O43: the sum wraps as the byte does, and VF is written only as the destination. -/
theorem addImmWrapsAndLeavesTheFlag : Obligations.AddImmWrapsAndLeavesTheFlag := by
  refine fun s x nn => ⟨_, next_writeV x _ s, ?_, fun r hr => readV_writeV_ne s hr _, rfl, rfl⟩
  exact (congrArg BitVec.toNat (readV_writeV_same s x _)).trans (BitVec.toNat_add _ _)

/-- Settles O44: each flag compares the operands before truncation. -/
theorem addAndSubtractWithFlag : Obligations.AddAndSubtractWithFlag :=
  fun _ _ _ => ⟨exists_next_writeResultAndFlag (· = _) (BitVec.toNat_add _ _) (carryFlag_eq _ _),
    exists_next_writeResultAndFlag (· = _) (toNat_sub_byte _ _) (noBorrowFlag_eq _ _),
    exists_next_writeResultAndFlag (· = _) (toNat_sub_byte _ _) (noBorrowFlag_eq _ _)⟩

/-- Settles O45: one place is a factor of 2, and the flag is the bit that leaves. -/
theorem shiftsMoveVyByOneBit : Obligations.ShiftsMoveVyByOneBit := by
  intro s x y b
  have hshr : (readV s y >>> 1).toNat = b / 2 := by rw [BitVec.toNat_ushiftRight, Nat.shiftRight_one]
  have hshl : (readV s y <<< 1).toNat = b * 2 % 256 := by rw [BitVec.toNat_shiftLeft, Nat.shiftLeft_eq, Nat.pow_one]
  exact ⟨exists_next_writeResultAndFlag (·.toNat = _) hshr (toNat_lowBitFlag _),
    exists_next_writeResultAndFlag (·.toNat = _) hshl (toNat_highBitFlag _)⟩

end Sys2Proof.Safety
end

section
/-! SUPPORT. The index and memory instructions (43_index_memory.md R150 to R155): the numbers they form, what each leaves when
its access fits and how it ends when it does not, and where the glyph table lies in a machine just loaded. -/

namespace Sys2Proof.Machine

/-! ### The range check, each way (20_memory.md R57, R58) -/

section
variable {base len : Nat} (k : State → Result) (s : State)

theorem withAccess_of_fits (h : base + len - 1 ≤ 4095) : withAccess base len k s = k s := by
  obtain ⟨_, he⟩ | ⟨_, hleaves, _⟩ := withAccess_cases base len k s
  · exact he
  · omega

theorem withAccess_of_leaves (hlen : 0 < len) (h : 4095 < base + len - 1) :
    withAccess base len k s = .fault (.memoryAccessOutOfBounds (max base 4096)) := by
  obtain ⟨hfits, _⟩ | ⟨_, _, he⟩ := withAccess_cases base len k s
  · omega
  · exact he

end

/-! ### The numbers formed -/

theorem toNat_zext (b : Byte) : b.zext.toNat = b.toNat := by
  simp only [Byte.zext, BitVec.toNat_setWidth]
  omega

/-- The product is not masked and does not wrap: it is at most 432 + 255 * 5 (R152, decision D11). -/
theorem toNat_glyphAddress (p : Params) (b : Byte) : (glyphAddress p b).toNat = p.glyphBase.val + b.toNat * 5 := by
  simp only [glyphAddress, BitVec.toNat_ofNat]
  omega

section
variable (b : Byte)

theorem toNat_hundreds : (hundreds b).toNat = b.toNat / 100 := by
  simp only [hundreds, BitVec.toNat_ofNat]
  omega

theorem toNat_tens : (tens b).toNat = b.toNat / 10 % 10 := by
  simp only [tens, BitVec.toNat_ofNat]
  omega

theorem toNat_units : (units b).toNat = b.toNat % 10 := by
  simp only [units, BitVec.toNat_ofNat]
  omega

end

/-! ### FX33, FX55 and FX65 -/

section
variable {s : State} {x : Reg}

theorem exec_bcd_of_fits (h : s.index.toNat + 2 ≤ 4095) :
    exec (.bcd x) s = next (storeDigits (baseAddress s) (readV s x) s) :=
  show execBcd x s = _ from withAccess_of_fits _ s h

theorem exec_bcd_of_leaves (h : 4095 < s.index.toNat + 2) :
    exec (.bcd x) s = .fault (.memoryAccessOutOfBounds (max s.index.toNat 4096)) :=
  show execBcd x s = _ from withAccess_of_leaves _ s (Nat.succ_pos 2) h

/-- I after a transfer that fits is at most 4096 (R154, R155). -/
theorem toNat_advanceIndex (h : s.index.toNat + x.val ≤ 4095) (u : State) :
    (advanceIndex (baseAddress s) x u).index.toNat = s.index.toNat + x.val + 1 := by
  simp only [advanceIndex, setIndex_index, baseAddress, transferCount, BitVec.toNat_ofNat]
  omega

/-- FX55 stores the registers, then moves I, then PC; storing touches neither. -/
theorem exec_storeRegs_of_fits (h : s.index.toNat + x.val ≤ 4095) :
    exec (.storeRegs x) s = .next { s with
      mem := (storeRegsAt (baseAddress s) (regsUpTo x) s).mem
      index := (advanceIndex (baseAddress s) x s).index
      pc := s.pc + 2 } := by
  have he : execStoreRegs x s = next (advanceIndex _ x (storeRegsAt _ (regsUpTo x) s)) := withAccess_of_fits _ s h
  exact he.trans (by rw [storeRegsAt_eq]; rfl)

theorem exec_storeRegs_of_leaves (h : 4095 < s.index.toNat + x.val) :
    exec (.storeRegs x) s = .fault (.memoryAccessOutOfBounds (max s.index.toNat 4096)) :=
  show execStoreRegs x s = _ from withAccess_of_leaves _ s (Nat.succ_pos _) h

/-- FX65 loads the registers, then moves I, then PC; loading touches neither. -/
theorem exec_loadRegs_of_fits (h : s.index.toNat + x.val ≤ 4095) :
    exec (.loadRegs x) s = .next { s with
      v := (loadRegsAt (baseAddress s) (regsUpTo x) s).v
      index := (advanceIndex (baseAddress s) x s).index
      pc := s.pc + 2 } := by
  have he : execLoadRegs x s = next (advanceIndex _ x (loadRegsAt _ (regsUpTo x) s)) := withAccess_of_fits _ s h
  exact he.trans (by rw [loadRegsAt_eq]; rfl)

theorem exec_loadRegs_of_leaves (h : 4095 < s.index.toNat + x.val) :
    exec (.loadRegs x) s = .fault (.memoryAccessOutOfBounds (max s.index.toNat 4096)) :=
  show execLoadRegs x s = _ from withAccess_of_leaves _ s (Nat.succ_pos _) h

end

/-! ### The glyph table of a loaded machine (20_memory.md R51) -/

theorem resetByte_glyph (p : Params) {j : Nat} (h : j < 80) : resetByte p (p.glyphBase.val + j) = p.glyphs[j] := by
  have htable : p.glyphBase.val ≤ p.glyphBase.val + j ∧ p.glyphBase.val + j < p.glyphBase.val + 80 := by omega
  simp only [resetByte, dif_pos htable, Nat.add_sub_cancel_left]

section
variable {p : Params} {image : List Byte} {s : State}

/-- Load that answers a machine answers the one the spec describes (70_reset_and_hazards.md R230). -/
theorem eq_of_load_next (h : load p image = .next s) :
    s = { State.reset with params := p, mem := Memory.ofBytes p 0x200 image, extHi := 0x200 + image.length } := by
  by_cases hl : image.length ≤ 3584
  · rw [load_next p hl] at h
    exact (Host.Outcome.next.inj h).symm
  · rw [load_fault p (by omega)] at h
    cases h

theorem params_of_load (h : load p image = .next s) : s.params = p := by rw [eq_of_load_next h]

/-- The image lies at 0x200 and above, so below it a loaded machine reads the reset content. -/
theorem readByte_of_load_below_origin (h : load p image = .next s) {a : Nat} (ha : a < 0x200) :
    readByte s a = resetByte p a := by
  rw [eq_of_load_next h]
  exact (Memory.read_ofBytes p 0x200 image a).trans (dif_neg (by omega))

theorem readByte_of_load_glyph (h : load p image = .next s) {j : Nat} (hj : j < 80) :
    readByte s (p.glyphBase.val + j) = p.glyphs[j] := by
  rw [readByte_of_load_below_origin h (by omega), resetByte_glyph p hj]

end

end Sys2Proof.Machine

namespace Sys2Proof.Safety

open Sys2Proof.Machine

/-- Settles O18: the glyph table lies whole below the image, and FX29 forms the address of the digit's glyph in it. -/
theorem fontAddressPointsAtTheGlyph : Obligations.FontAddressPointsAtTheGlyph := by
  intro p image s v x hload _
  refine ⟨_, rfl, fun j _ h => ?_⟩
  have hindex : (glyphAddress s.params v[x]).toNat + j = p.glyphBase.val + ((v[x]).toNat * 5 + j) := by
    rw [toNat_glyphAddress, params_of_load hload, Nat.add_assoc]
  exact (congrArg (readByte s) hindex).trans (readByte_of_load_glyph hload h)

/-- Settles O48: of the three stores each address keeps the one made to it. -/
theorem bcdStoresTheThreeDigits : Obligations.BcdStoresTheThreeDigits := by
  intro s x hm
  refine ⟨exec_bcd_of_leaves, fun h => ?_⟩
  have hread := readByte_storeDigits (base := baseAddress s) hm (Nat.lt_succ_of_le h) (readV s x)
  refine ⟨_, exec_bcd_of_fits h, ?_, ?_, ?_, readByte_storeDigits_ne s _ _, rfl⟩
  · exact (congrArg BitVec.toNat ((hread _).trans (by simp))).trans (toNat_hundreds _)
  · exact (congrArg BitVec.toNat ((hread _).trans (by simp))).trans (toNat_tens _)
  · exact (congrArg BitVec.toNat ((hread _).trans (if_pos rfl))).trans (toNat_units _)

/-- Settles O49: each of V0 to VX keeps the byte stored for it, and the frame of FX55 holds no byte outside I to I + X. -/
theorem storeRegsStoresV0ToVx : Obligations.StoreRegsStoresV0ToVx := by
  intro s x hm
  refine ⟨exec_storeRegs_of_leaves, fun h => ?_⟩
  have hexec := exec_storeRegs_of_fits h
  refine ⟨_, hexec, fun r hr => readByte_of_execStoreRegs hm hexec hr, fun a ha => ?_, toNat_advanceIndex h s, rfl⟩
  refine exec_changesOnly hexec (.byte a)
    (not_mayWrite_of_not_writesOther Piece.noConfusion (fun _ => Piece.noConfusion) ?_)
  rintro (hp | ⟨b, hlo, hhi, hp⟩) <;> cases hp
  omega

/-- Settles O50: the listed registers are V0 to VX, and loading one changes no byte that a later one reads. -/
theorem loadRegsLoadsV0ToVx : Obligations.LoadRegsLoadsV0ToVx := by
  intro s x
  refine ⟨exec_loadRegs_of_leaves, fun h => ⟨_, exec_loadRegs_of_fits h, fun r => ?_, toNat_advanceIndex h s, rfl⟩⟩
  exact (readV_loadRegsAt _ (regsUpTo x) s r).trans (if_congr (mem_regsUpTo x r) rfl rfl)

/-- Settles O51: FX65 reads the bytes that FX55 left, from the same I. -/
theorem storedRegistersLoadBack : Obligations.StoredRegistersLoadBack := by
  intro s x v hm h
  obtain ⟨t, hstore, hbytes, _, htIndex, _⟩ := (storeRegsStoresV0ToVx s x hm).2 h
  obtain ⟨u, hload, hregs, huIndex, _⟩ := (loadRegsLoadsV0ToVx { t with index := s.index, v := v } x).2 h
  refine ⟨t, u, hstore, hload, fun r hr => ?_, BitVec.eq_of_toNat_eq (huIndex.trans htIndex.symm)⟩
  rw [hregs, if_pos hr]
  exact hbytes r hr

/-- Settles O46. -/
theorem ldISetsTheIndex : Obligations.LdISetsTheIndex :=
  fun s nnn => ⟨setPc (s.pc + 2) (setIndex (zextNNN nnn) s), rfl, toNat_zextNNN nnn, rfl⟩

/-- Settles O47: the 16-bit sum of FX1E wraps, the product of FX29 does not reach 65536. -/
theorem addIAndLdFFormTheIndex : Obligations.AddIAndLdFFormTheIndex := by
  intro s x
  refine ⟨⟨_, rfl, ?_, rfl⟩, ⟨_, rfl, toNat_glyphAddress s.params (readV s x), rfl⟩⟩
  exact (BitVec.toNat_add _ _).trans (by rw [toNat_zext])

end Sys2Proof.Safety
end

section
/-! SUPPORT. The random byte and the timer instructions (44_random_timers.md R170 to R173). -/

namespace Sys2Proof.Machine

theorem next_setDt (a : Byte) (s : State) : next (setDt a s) = .next { s with dt := a, pc := s.pc + 2 } := rfl

theorem next_setSt (a : Byte) (s : State) : next (setSt a s) = .next { s with st := a, pc := s.pc + 2 } := rfl

end Sys2Proof.Machine

namespace Sys2Proof.Safety

open Sys2Proof.Machine

/-- Settles O53: VX is the one register written, and it reads back the masked byte. -/
theorem rndMasksTheRandomByte : Obligations.RndMasksTheRandomByte := by
  intro s x nn
  have hx : readV (setPc (s.pc + 2) (writeV x (s.rnd &&& nn) s)) x = s.rnd &&& nn := readV_writeV_same s x _
  refine ⟨_, next_writeV x _ s, hx, fun j hj => ?_, fun r hr => readV_writeV_ne s hr _, rfl, rfl⟩
  have hbit : (s.rnd &&& nn).getLsbD j = false := by rw [BitVec.getLsbD_and, hj, Bool.and_false]
  exact (congrArg (·.getLsbD j) hx).trans hbit

/-- Settles O54: each of the three writes one register or timer and advances PC. -/
theorem timerInstructionsMoveTheTimers : Obligations.TimerInstructionsMoveTheTimers :=
  fun s x => ⟨next_writeV x s.dt s, next_setDt s.v[x] s, next_setSt s.v[x] s⟩

end Sys2Proof.Safety
end

section
/-! SUPPORT. The keypad instructions (45_keypad.md R180 to R186): the key a skip tests, the lowest pressed key, and FX0A
poll by poll, each poll completing. -/

namespace Sys2Proof.Machine

/-! ### The key skips -/

/-- The low four bits of a byte are its residue modulo 16 (R186, decision D10). -/
theorem keyIndex_eq_of_mod {b : Byte} {k : Key} (h : b.toNat % 16 = k.val) : keyIndex b = k :=
  Fin.ext ((BitVec.extractLsb'_toNat 0 4 b).trans h)

theorem skipIf_not_eq (c : Bool) (s : State) :
    skipIf (!c) s = .next (setPc (if c then s.pc + 2 else s.pc + 4) s) := by
  rw [skipIf_eq]
  cases c <;> rfl

/-! ### One poll of FX0A -/

section
variable {s : State} {k : Key}

/-- The key found and `k` are both pressed, and each has every lower key up, so neither is below the other (R183). -/
theorem lowestPressed_eq_some_of_least (hk : keyDown s k = true) (hlow : ∀ j, j < k → keyDown s j = false) :
    lowestPressed s = some k := by
  cases h : lowestPressed s with
  | none => exact absurd hk (by simp [lowestPressed_none.1 h k])
  | some j =>
    obtain ⟨hj, hjlow⟩ := lowestPressed_some h
    have hjk : ¬ j < k := fun hlt => by simp [hlow j hlt] at hj
    have hkj : ¬ k < j := fun hlt => by simp [hjlow k hlt] at hk
    rw [Fin.le_antisymm (Fin.not_lt.1 hkj) (Fin.not_lt.1 hjk)]

variable (x : Reg)

theorem pollPress_of_some (h : lowestPressed s = some k) :
    pollPress x s = .next (setKw (.awaitingRelease k) (writeV x (keyByte k) s)) := by
  rw [pollPress, h]

theorem pollPress_of_none (h : lowestPressed s = none) : pollPress x s = .next (setKw .awaitingPress s) := by
  rw [pollPress, h]

theorem pollRelease_of_up (h : keyDown s k = false) : pollRelease k s = next (setKw .idle s) :=
  if_neg (by simp [h])

theorem pollRelease_of_down (h : keyDown s k = true) : pollRelease k s = .next s := if_pos h

theorem exec_ldVxK_of_not_latched (h : s.kw = .idle ∨ s.kw = .awaitingPress) : exec (.ldVxK x) s = pollPress x s := by
  change execLdVxK x s = _
  obtain h | h := h <;> rw [execLdVxK, h]

theorem exec_ldVxK_of_latched (h : s.kw = .awaitingRelease k) : exec (.ldVxK x) s = pollRelease k s := by
  change execLdVxK x s = _
  rw [execLdVxK, h]

theorem exists_pollPress_eq_next (s : State) : ∃ t, pollPress x s = .next t := by
  cases h : lowestPressed s with
  | none => exact ⟨_, pollPress_of_none x h⟩
  | some k => exact ⟨_, pollPress_of_some x h⟩

theorem exists_pollRelease_eq_next (k : Key) (s : State) : ∃ t, pollRelease k s = .next t := by
  cases h : keyDown s k with
  | false => exact ⟨_, pollRelease_of_up h⟩
  | true => exact ⟨_, pollRelease_of_down h⟩

/-- A poll does not block and does not fail (R182). -/
theorem exists_exec_ldVxK_eq_next (s : State) : ∃ t, exec (.ldVxK x) s = .next t := by
  cases h : s.kw with
  | idle => rw [exec_ldVxK_of_not_latched x (.inl h)]; exact exists_pollPress_eq_next x s
  | awaitingPress => rw [exec_ldVxK_of_not_latched x (.inr h)]; exact exists_pollPress_eq_next x s
  | awaitingRelease k => rw [exec_ldVxK_of_latched x h]; exact exists_pollRelease_eq_next k s

end

/-- A poll leaves KW other than Idle and PC where it is, or ends the wait and advances PC (R185). -/
theorem execLdVxK_waits_or_ends {s t : State} {x : Reg} (h : execLdVxK x s = .next t) :
    (t.kw ≠ .idle ∧ t.pc = s.pc) ∨ (t.kw = .idle ∧ t.pc = s.pc + 2) := by
  obtain ⟨_, ⟨k, rfl⟩ | rfl⟩ | ⟨k, hk, ⟨_, rfl⟩ | ⟨_, rfl⟩⟩ := execLdVxK_next h
  · exact .inl ⟨nofun, rfl⟩
  · exact .inl ⟨nofun, rfl⟩
  · exact .inl ⟨by simp [hk], rfl⟩
  · exact .inr ⟨rfl, rfl⟩

/-- A Step whose fetch succeeds executes the instruction its word decodes to (30_encoding.md R76). -/
theorem perform_step_of_fetch {s : State} {i : Instr} (hx : inExtent s = true) (hpc : s.pc.toNat ≤ 4094)
    (hd : decode (fetchWord s) = .ok i) (r : Byte) : perform (.step r) s = exec i (latchRnd r s) := by
  have hext := (inExtent_iff s).1 hx
  obtain ⟨hout, _⟩ | ⟨_, _, htop, _⟩ | ⟨_, _, _, he⟩ := cycle_cases (latchRnd r s)
  · exact absurd hext hout
  · exact absurd (htop.trans hpc) (by decide)
  · exact he.trans (executeWord_ok hd _)

end Sys2Proof.Machine

namespace Sys2Proof.Safety

open Sys2Proof.Machine

/-- Settles O23: the invariant holds the FX0A at PC, and its poll completes. -/
theorem waitingMachineOnlyPolls : Obligations.WaitingMachineOnlyPolls := by
  intro s r hinv hkw
  obtain ⟨hx, hpc, x, hd, _⟩ := hinv.keyWait hkw
  obtain ⟨t, ht⟩ := exists_exec_ldVxK_eq_next x (latchRnd r s)
  exact ⟨x, t, hd, (perform_step_of_fetch hx hpc hd r).trans ht, execLdVxK_waits_or_ends (s := latchRnd r s) ht⟩

/-- Settles O55: one poll for each state of KW and each level of the keys it examines. -/
theorem keyWaitPollsAsItsStateMachine : Obligations.KeyWaitPollsAsItsStateMachine := by
  refine fun s x => ⟨fun hkw => ⟨fun k hk hlow => ?_, fun hup => ?_⟩, fun k hkw => ⟨fun hup => ?_, fun hdown => ?_⟩⟩
  · exact (exec_ldVxK_of_not_latched x hkw).trans (pollPress_of_some x (lowestPressed_eq_some_of_least hk hlow))
  · exact (exec_ldVxK_of_not_latched x hkw).trans (pollPress_of_none x (lowestPressed_none.2 hup))
  · exact (exec_ldVxK_of_latched x hkw).trans (pollRelease_of_up hup)
  · exact (exec_ldVxK_of_latched x hkw).trans (pollRelease_of_down hdown)

/-- Settles O41: both are one conditional skip on the level of the key tested, EXA1 with the condition negated. -/
theorem keySkipsTestKeyModuloSixteen : Obligations.KeySkipsTestKeyModuloSixteen := by
  intro s x k hk
  obtain rfl := keyIndex_eq_of_mod hk
  exact ⟨skipIf_eq _ s, skipIf_not_eq _ s⟩

end Sys2Proof.Safety
end

section
/-! SUPPORT. When an instruction ends without Continue (60_exceptions.md R201, R203, R207; 46_halt_unknown.md R190). -/

namespace Sys2Proof.Safety

open Sys2Proof.Machine

section
variable {s : State} {e : Fault}

/-- A ranged access with nothing else to fail faults exactly when it leaves memory (20_memory.md R57, R58). -/
theorem withAccess_fault_iff {base len : Nat} {f : State → State} :
    withAccess base len (fun u => next (f u)) s = .fault e ↔
      0 < len ∧ 4095 < base + len - 1 ∧ e = .memoryAccessOutOfBounds (max base 4096) := by
  obtain ⟨hfits, he⟩ | ⟨hlen, hleaves, he⟩ := withAccess_cases base len (fun u => next (f u)) s
  · rw [he]
    exact iff_of_false nofun fun ⟨_, _, _⟩ => by omega
  · rw [he, Host.Outcome.fault.injEq, eq_comm]
    exact ⟨fun h => ⟨hlen, hleaves, h⟩, fun h => h.2.2⟩

theorem exec_ret_fault_iff : exec .ret s = .fault e ↔ s.sp.val = 0 ∧ e = .stackUnderflow := by
  by_cases h : s.sp.val = 0
  · rw [exec_ret_of_empty h, Host.Outcome.fault.injEq, eq_comm, and_iff_right h]
  · have hlive : s.sp.val = (⟨s.sp.val - 1, by omega⟩ : Fin 16).val + 1 := by dsimp only; omega
    rw [exec_ret_of_live hlive]
    exact iff_of_false nofun fun he => h he.1

theorem exec_call_fault_iff (nnn : BitVec 12) :
    exec (.call nnn) s = .fault e ↔ s.sp.val = 16 ∧ e = .stackOverflow := by
  by_cases h : s.sp.val = 16
  · rw [exec_call_of_full nnn h, Host.Outcome.fault.injEq, eq_comm, and_iff_right h]
  · have hfree : s.sp.val < 16 := by omega
    rw [exec_call_of_free (j := ⟨s.sp.val, hfree⟩) nnn rfl]
    exact iff_of_false nofun fun he => h he.1

theorem exec_ldVxK_ne_fault (x : Reg) : exec (.ldVxK x) s ≠ .fault e := by
  obtain ⟨t, ht⟩ := exists_exec_ldVxK_eq_next x s
  rw [ht]
  exact nofun

theorem skipIf_ne_fault (c : Bool) : skipIf c s ≠ .fault e := by
  rw [skipIf_eq]
  exact nofun

/-- An instruction ends without Continue exactly as listed: a full or empty stack, an access that leaves memory, HALT. -/
theorem exec_fault_iff (i : Instr) : exec i s = .fault e ↔ endsWith s e i := by
  cases i with
  | ret => exact exec_ret_fault_iff
  | call nnn => exact exec_call_fault_iff nnn
  | drw x y n => exact withAccess_fault_iff
  | bcd x => exact withAccess_fault_iff.trans (and_iff_right (by decide))
  | storeRegs x | loadRegs x => exact withAccess_fault_iff.trans (and_iff_right (Nat.succ_pos x.val))
  | halt => exact (Host.Outcome.fault.injEq ..).to_iff.trans eq_comm
  | seImm | sneImm | seReg | sneReg | skp | sknp => exact iff_of_false (skipIf_ne_fault _) id
  | ldVxK x => exact iff_of_false (exec_ldVxK_ne_fault x) id
  | cls | jp | jpV0 | ldImm | addImm | mov | or | and | xor | addReg | sub | shr | subn | shl | ldI | addI | ldF | rnd
  | ldVxDt | ldDtVx | ldStVx => exact iff_of_false nofun id

end

end Sys2Proof.Safety
end

section
/-! SUPPORT. What a Step that ends without Continue depends on: pieces of the state that neither such a Step nor any other
event changes, so that nothing need remember the end (60_exceptions.md R206, decision D21). -/

namespace Sys2Proof.Safety

open Sys2Proof.Machine

/-- The two states agree on all that decides whether, and how, a Step ends without Continue. -/
structure SameEnd (s t : State) : Prop where
  pc : t.pc = s.pc
  extHi : t.extHi = s.extHi
  mem : t.mem = s.mem
  params : t.params = s.params
  sp : t.sp = s.sp
  index : t.index = s.index

section
variable {s t : State} {e : Fault}

theorem SameEnd.refl (s : State) : SameEnd s s := ⟨rfl, rfl, rfl, rfl, rfl, rfl⟩

theorem endsWith_iff_of_sameEnd (h : SameEnd s t) (i : Instr) : endsWith t e i ↔ endsWith s e i := by
  cases i <;> simp only [endsWith, h.sp, h.index]

theorem executeWord_fault_iff_of_sameEnd (h : SameEnd s t) (w : Word) :
    executeWord w t = .fault e ↔ executeWord w s = .fault e := by
  cases hd : decode w with
  | ok i => rw [executeWord_ok hd, executeWord_ok hd, exec_fault_iff, exec_fault_iff, endsWith_iff_of_sameEnd h]
  | unknown u => rw [executeWord_unknown hd, executeWord_unknown hd]

theorem cycle_fault_iff_of_sameEnd (h : SameEnd s t) : cycle t = .fault e ↔ cycle s = .fault e := by
  have hx : inExtent t = inExtent s := by rw [inExtent, inExtent, h.pc, h.extHi]
  have hw : fetchWord t = fetchWord s := fetchWord_congr h.pc h.mem h.params
  unfold cycle
  rw [hx, h.pc, hw]
  split
  · rfl
  · split
    · rfl
    · exact executeWord_fault_iff_of_sameEnd h _

/-- The random byte does not matter either: CXNN, which alone reads it, always continues. -/
theorem perform_step_fault_of_sameEnd (h : SameEnd s t) {r : Byte} (hr : perform (.step r) s = .fault e) (q : Byte) :
    perform (.step q) t = .fault e :=
  (cycle_fault_iff_of_sameEnd (s := latchRnd r s) (t := latchRnd q t)
    ⟨h.pc, h.extHi, h.mem, h.params, h.sp, h.index⟩).2 hr

/-- A Step there ends the same again and so leaves the state; ticks and keys touch nothing that decides the end. -/
theorem afterEvent_sameEnd {r : Byte} (hr : perform (.step r) s = .fault e) (ev : Event) :
    SameEnd s (afterEvent s ev) := by
  cases ev with
  | step q =>
    rw [afterEvent_fault (perform_step_fault_of_sameEnd (.refl s) hr q)]
    exact .refl s
  | tickTimers | setKey k b => exact ⟨rfl, rfl, rfl, rfl, rfl, rfl⟩

end

/-- Settles O12, by induction on the events: after each of them a Step still ends the same. -/
theorem endedRunsStayEnded : Obligations.EndedRunsStayEnded := by
  intro s r e hr es
  induction es generalizing s with
  | nil => exact perform_step_fault_of_sameEnd (.refl s) hr
  | cons ev es ih => exact ih (afterEvent s ev) (perform_step_fault_of_sameEnd (afterEvent_sameEnd hr ev) hr r)

end Sys2Proof.Safety
end

section
/-! SUPPORT. HALT and the Unknown words in a Step (46_halt_unknown.md R190, R191). -/

namespace Sys2Proof.Safety

open Sys2Proof.Machine

/-- A Step whose fetch succeeds fails on a word that is no instruction (46_halt_unknown.md R191). -/
theorem perform_step_of_unknown {s : State} {u : Word} (hx : inExtent s = true) (hpc : s.pc.toNat ≤ 4094)
    (hd : decode (fetchWord s) = .unknown u) (r : Byte) : perform (.step r) s = .fault (.unimplementedOpcode u) := by
  have hext := (inExtent_iff s).1 hx
  obtain ⟨hout, _⟩ | ⟨_, _, htop, _⟩ | ⟨_, _, _, he⟩ := cycle_cases (latchRnd r s)
  · exact absurd hext hout
  · exact absurd (htop.trans hpc) (by decide)
  · exact he.trans (executeWord_unknown hd _)

/-- Settles O56: the word FFFF decodes to HALT, and an event that ends without Continue leaves the state. -/
theorem haltReturnsHaltedAndChangesNothing : Obligations.HaltReturnsHaltedAndChangesNothing := by
  refine fun s => ⟨rfl, fun r hx hpc hw => ?_⟩
  have hd : decode (fetchWord s) = .ok .halt := by rw [hw]; rfl
  have hend : perform (.step r) s = .fault .halted := perform_step_of_fetch hx hpc hd r
  exact ⟨hend, afterEvent_fault hend⟩

/-- Settles O57: the decoder answers such a word with the word itself. -/
theorem unknownWordsFailAndChangeNothing : Obligations.UnknownWordsFailAndChangeNothing := by
  intro s r w hx hpc hw hno
  cases hd : decode w with
  | ok i => exact absurd hd (hno i)
  | unknown u =>
    obtain ⟨rfl, _⟩ := answers_of_decode_unknown hd
    have hend : perform (.step r) s = .fault (.unimplementedOpcode u) :=
      perform_step_of_unknown hx hpc (hw.symm ▸ hd) r
    exact ⟨hend, afterEvent_fault hend⟩

end Sys2Proof.Safety
end

section
/-! SUPPORT. How an instruction, and a Step of a program that keeps the hazard rules, can end (60_exceptions.md R201, R203;
70_reset_and_hazards.md R236). -/

namespace Sys2Proof.Safety

open Sys2Proof.Machine

section
variable {s : State} {q : Refusal}

theorem withAccess_ne_refused {base len : Nat} {f : State → State} :
    withAccess base len (fun u => next (f u)) s ≠ .refused q := by
  obtain ⟨_, he⟩ | ⟨_, _, he⟩ := withAccess_cases base len (fun u => next (f u)) s
  · exact he ▸ nofun
  · exact he ▸ nofun

theorem execRet_ne_refused : execRet s ≠ .refused q := by
  obtain ⟨_, he⟩ | ⟨_, he⟩ := pop_cases (fun target u => .next (setPc target u)) s
  · exact fun h => nomatch he.symm.trans h
  · exact fun h => nomatch he.symm.trans h

theorem execCall_ne_refused (nnn : BitVec 12) : execCall nnn s ≠ .refused q := by
  obtain ⟨_, he⟩ | ⟨_, he⟩ := push_cases (s.pc + 2) (fun u => .next (setPc (zextNNN nnn) u)) s
  · exact fun h => nomatch he.symm.trans h
  · exact fun h => nomatch he.symm.trans h

theorem skipIf_ne_refused (c : Bool) : skipIf c s ≠ .refused q := by
  rw [skipIf_eq]
  exact nofun

theorem exec_ldVxK_ne_refused (x : Reg) : exec (.ldVxK x) s ≠ .refused q := by
  obtain ⟨t, ht⟩ := exists_exec_ldVxK_eq_next x s
  rw [ht]
  exact nofun

/-- Every instruction has a meaning. -/
theorem exec_ne_refused (i : Instr) : exec i s ≠ .refused q := by
  cases i with
  | ret => exact execRet_ne_refused
  | call nnn => exact execCall_ne_refused nnn
  | drw | bcd | storeRegs | loadRegs => exact withAccess_ne_refused
  | seImm | sneImm | seReg | sneReg | skp | sknp => exact skipIf_ne_refused _
  | ldVxK x => exact exec_ldVxK_ne_refused x
  | cls | jp | jpV0 | ldImm | addImm | mov | or | and | xor | addReg | sub | shr | subn | shl | ldI | addI | ldF | rnd
  | ldVxDt | ldDtVx | ldStVx | halt => exact nofun

end

/-- Settles O28. -/
theorem instructionsEndExactlyAsListed : Obligations.InstructionsEndExactlyAsListed :=
  fun i _ => ⟨fun _ => exec_fault_iff i, fun _ => exec_ne_refused i⟩

/-- Settles O29: below 4095 the fetch does not fail, and the instruction fetched ends only as R236 rules out. -/
theorem programsThatKeepTheHazardRulesAreSafe : Obligations.ProgramsThatKeepTheHazardRulesAreSafe := by
  intro s ⟨hpc, i, hd, hno⟩ e he
  obtain ⟨_, hend⟩ | ⟨_, _, htop, _⟩ | ⟨_, _, _, hexec⟩ := cycle_cases s
  · exact Host.Outcome.fault.inj (he.symm.trans hend)
  · exact absurd (htop.trans hpc) (by decide)
  · rw [hexec, executeWord_ok hd, exec_fault_iff] at he
    exact not_imp_not.1 (hno e) he

end Sys2Proof.Safety
end

section
/-! SUPPORT. The events beside Step, and Snapshot (60_exceptions.md R214, R216, R219). -/

namespace Sys2Proof.Machine

/-! ### TickTimers and SetKey -/

/-- Settles O9: the step is one `tickTimers`. -/
theorem tickTimersDecrementsBothFlooredAtZero : Obligations.TickTimersDecrementsBothFlooredAtZero :=
  fun _ _ hs => ⟨_, step_of_pending hs, toNat_tickDown _, toNat_tickDown _, rfl⟩

/-- Settles O10, by induction on the number of ticks: `n` more of them after a first one. -/
theorem manyTicksRunTheTimersDownToZero : Obligations.ManyTicksRunTheTimersDownToZero := by
  intro n
  induction n with
  | zero => exact fun s => ⟨rfl, rfl, rfl⟩
  | succ n ih =>
    intro s
    have hfirst : afterEvents s (List.replicate (n + 1) .tickTimers)
        = afterEvents (tickTimers s) (List.replicate n .tickTimers) := rfl
    obtain ⟨hdt, hst, heq⟩ := ih (tickTimers s)
    rw [tickTimers_dt, toNat_tickDown, Nat.sub_sub, Nat.add_comm] at hdt
    rw [tickTimers_st, toNat_tickDown, Nat.sub_sub, Nat.add_comm] at hst
    rw [hfirst]
    exact ⟨hdt, hst, heq⟩

/-- Settles O11: the step sets one bit of KEY. -/
theorem setKeyChangesOneKey : Obligations.SetKeyChangesOneKey := by
  refine fun s k b es hs => ⟨_, step_of_pending hs, ?_, fun j hj => ?_, rfl⟩
  · exact (keyDown_setKeyBit _ k k b).trans (if_pos rfl)
  · exact (keyDown_setKeyBit _ k j b).trans (if_neg hj)

/-! ### Snapshot -/

theorem length_bitmapRow (row : BitVec 64) : (bitmapRow row).length = 64 := by
  simp [bitmapRow]

theorem getElem?_bitmapRow (row : BitVec 64) {x : Nat} (hx : x < 64) : (bitmapRow row)[x]? = some (row.getLsbD x) := by
  simp [bitmapRow, hx]

theorem length_flatMap_bitmapRow (rows : List (BitVec 64)) : (rows.flatMap bitmapRow).length = rows.length * 64 := by
  simp [List.length_flatMap, length_bitmapRow]

/-- Rows one after another: row `y` begins at `y * 64` (10_state.md R30). -/
theorem getElem?_flatMap_bitmapRow (rows : List (BitVec 64)) (y : Nat) {x : Nat} (hx : x < 64) :
    (rows.flatMap bitmapRow)[y * 64 + x]? = rows[y]?.map (·.getLsbD x) := by
  induction rows generalizing y with
  | nil => rfl
  | cons row rows ih =>
    have hlen := length_bitmapRow row
    cases y with
    | zero =>
      rw [List.flatMap_cons, List.getElem?_append_left (by omega), Nat.zero_mul, Nat.zero_add, getElem?_bitmapRow row hx]
      rfl
    | succ y =>
      have hrest : (y + 1) * 64 + x - (bitmapRow row).length = y * 64 + x := by omega
      rw [List.flatMap_cons, List.getElem?_append_right (by omega), hrest, ih, List.getElem?_cons_succ]

theorem getElem?_toList_of_fin {α : Type} {n : Nat} (v : Vector α n) (i : Fin n) : v.toList[i.val]? = some v[i] :=
  Vector.getElem?_toList.trans (Vector.getElem?_eq_getElem i.isLt)

/-- Settles O14: each list of the snapshot is a vector of the state, FB row by row. -/
theorem snapshotShowsExactlyTheListedState : Obligations.SnapshotShowsExactlyTheListedState := by
  intro s
  refine ⟨rfl, rfl, rfl, rfl, rfl, Vector.length_toList, getElem?_toList_of_fin s.v,
    Vector.length_toList, getElem?_toList_of_fin s.stack, ?_, fun y x => ?_,
    Vector.length_toList, getElem?_toList_of_fin s.key, fun _ _ _ => rfl⟩
  · exact (length_flatMap_bitmapRow _).trans (by rw [Vector.length_toList])
  · refine (getElem?_flatMap_bitmapRow _ y x.isLt).trans ?_
    rw [getElem?_toList_of_fin]
    rfl

end Sys2Proof.Machine
end

section
/-! SUPPORT. What Load places in memory, and the machine of the empty image (70_reset_and_hazards.md R230, R231, R234). -/

namespace Sys2Proof.Machine

theorem resetByte_of_not_glyph (p : Params) {a : Nat} (h : a < p.glyphBase.val ∨ p.glyphBase.val + 80 ≤ a) :
    resetByte p a = 0 :=
  dif_neg (by omega)

section
variable {p : Params} {image : List Byte} {s : State}

theorem readByte_of_load_image (h : load p image = .next s) {k : Nat} (hk : k < image.length) :
    readByte s (0x200 + k) = image[k] := by
  rw [eq_of_load_next h]
  refine (Memory.read_ofBytes p 0x200 image _).trans ?_
  rw [dif_pos (by omega)]
  simp only [Nat.add_sub_cancel_left]

/-- Neither in the glyph table nor in the image a loaded machine reads 0 (decision D7). -/
theorem readByte_of_load_elsewhere (h : load p image = .next s) {a : Nat}
    (hglyph : a < p.glyphBase.val ∨ p.glyphBase.val + 80 ≤ a) (himage : a < 0x200 ∨ 0x200 + image.length ≤ a) :
    readByte s a = 0 := by
  rw [eq_of_load_next h]
  refine (Memory.read_ofBytes p 0x200 image a).trans ?_
  rw [dif_neg (by omega), resetByte_of_not_glyph p hglyph]

end

/-- Settles O16: memory is the image over the glyph table over zeros, and every other field is that of reset. -/
theorem loadPlacesGlyphsAndImage : Obligations.LoadPlacesGlyphsAndImage := by
  intro p image hlen
  have hload := load_next p hlen
  exact ⟨_, hload, fun _ => readByte_of_load_glyph hload, fun _ => readByte_of_load_image hload,
    fun _ => readByte_of_load_elsewhere hload, rfl, rfl, rfl, rfl, rfl,
    fun r => Vector.getElem_replicate r.isLt, rfl, fun j => Vector.getElem_replicate j.isLt, pixelAt_clearFb, rfl, rfl,
    fun k => Vector.getElem_replicate k.isLt⟩

/-- Settles O15. -/
theorem loadFailsExactlyAboveRomMax : Obligations.LoadFailsExactlyAboveRomMax := by
  refine fun p image => ⟨load_fault p, fun hlen => ⟨_, load_next p hlen, rfl⟩, fun hlen => ?_⟩
  have hload := load_next p hlen.le
  exact ⟨_, hload, congrArg (0x200 + ·) hlen, fun _ => readByte_of_load_image hload⟩

/-- A Step that finds PC outside the extent is Halted (20_memory.md R59). -/
theorem perform_step_of_outside {s : State} (h : ¬ (0x200 ≤ s.pc.toNat ∧ s.pc.toNat < s.extHi)) (r : Byte) :
    perform (.step r) s = .fault .halted := by
  obtain ⟨_, he⟩ | ⟨hlo, hhi, _⟩ | ⟨hlo, hhi, _⟩ := cycle_cases (latchRnd r s)
  · exact he
  · exact absurd ⟨hlo, hhi⟩ h
  · exact absurd ⟨hlo, hhi⟩ h

/-- Settles O17: the extent of the empty image is empty, so the first Step finds PC outside it. -/
theorem resetIsTheEmptyMachineAndHalts : Obligations.ResetIsTheEmptyMachineAndHalts := by
  refine ⟨load_next defaultParams (Nat.zero_le _), ?_, rfl, rfl, rfl, rfl⟩
  have hstep := step_of_nothing_pending (s := State.reset) rfl
  exact hstep.trans (perform_step_of_outside (by decide) _)

end Sys2Proof.Machine
end
